-- ==== Sys2Proof/Word.lean ====
section
/-! DEFINITION. The widths of the block: hash words, bytes and host words (spec/00_scope.md R7, R8).
Every value is unsigned (R8); `+` and `-` on these types wrap at the stated width (R9). -/

namespace Sys2Proof

/-- A hash word, `WORD_BITS` = 64 bits (R7). -/
abbrev Word := BitVec 64

/-- One byte of a message, key, salt, buffer or digest (R10). -/
abbrev Byte := BitVec 8

/-- A word of the register port, `HOST_WORD_BITS` = 32 bits (R7, R63). -/
abbrev HostWord := BitVec 32

/-- A byte offset into the 512-byte register window, `WINDOW_BYTES` = 512 (R7, R60). -/
abbrev Offset := BitVec 9

end Sys2Proof
end

