-- ==== Sys2Proof/Config.lean ====
section
/-! DEFINITION. What the platform or the bus fixes and the spec leaves OPEN
(spec/93_implementation_defined.md section 2, spec/92_eei_decisions.md D3 and D36). None of these has a value here. -/

namespace Sys2Proof

/-- `BASE` in units of the window: the base address is `512 * baseIndex` (spec/93_implementation_defined.md section 2:
"512-byte aligned"). OPEN (R69, D3). -/
opaque Config.baseIndex : Nat

/-- `BASE`, the platform address of window offset 0x000 (R7, R60). -/
def Config.base : Nat := 512 * Config.baseIndex

/-- Free value: whether the bus acknowledges the `k`-th transaction that hardware reset cuts off.
OPEN under `BUS_PROTOCOL` (R331, D36); notes/assumptions/4.md. -/
opaque Config.cutOffAcked : Nat → Bool

/-- Free value: the data an acknowledged, cut-off read returns.
OPEN under `BUS_PROTOCOL` (R331, D36); notes/assumptions/4.md. -/
opaque Config.cutOffData : Nat → HostWord

end Sys2Proof
end

