-- ==== Sys2Proof/Syntax.lean ====
section
/-! DEFINITION. The commands of the block, one constructor per row of spec/opcode_table.json
(spec/30_encoding.md R103). -/

namespace Sys2Proof

/-- A command the host issues by writing `CMD`. `write n` carries the byte count `n = zext(LEN)` (R102);
a `WRITE` word whose count is 129 to 255 is well formed and is this constructor too. -/
inductive Instr where
  | init
  | write (n : Nat)
  | sum
  | reset
deriving DecidableEq, Repr

end Sys2Proof
end

