-- ==== Sys2Proof/WellFormed.lean ====
section
/-! DEFINITION. Which commands have a command word: the byte count of `WRITE` fits the 8-bit field `LEN`
(spec/30_encoding.md R101, R102). -/

namespace Sys2Proof

/-- A `WRITE` count is "an unsigned byte count from 0 to 255" (R102); the other commands have no operand. -/
def Instr.wellFormed : Instr → Bool
  | .init => true
  | .write n => decide (n < 256)
  | .sum => true
  | .reset => true

end Sys2Proof
end

