-- ==== Sys2Proof/Decode.lean ====
section
/-! DEFINITION. The command decoder, total on every 32-bit word, and the encoder
(spec/30_encoding.md R100 to R106, spec/opcode_table.json). -/

namespace Sys2Proof

/-- Why a word written to `CMD` is illegal (R105). All three execute as `ILLEGAL_COMMAND`. -/
inductive DecodeError where
  /-- `OP` is none of 0x01 to 0x04. -/
  | undefinedOpcode
  /-- `RSV` is not 0. -/
  | reservedBits
  /-- `LEN` is not 0 in a command other than `WRITE`. -/
  | unexpectedLength
deriving DecidableEq, Repr

/-- Field `OP`, bits [7:0] (R101). -/
def opField (w : HostWord) : BitVec 8 := w.extractLsb' 0 8

/-- Field `LEN`, bits [15:8] (R101). -/
def lenField (w : HostWord) : BitVec 8 := w.extractLsb' 8 8

/-- Field `RSV`, bits [31:16] (R101). -/
def rsvField (w : HostWord) : BitVec 16 := w.extractLsb' 16 16

/-- The command an opcode stands for, with `n` the count of `LEN` (R103). -/
def commandOf (op : BitVec 8) (n : Nat) : Option Instr :=
  if op = 0x01#8 then some .init
  else if op = 0x02#8 then some (.write n)
  else if op = 0x03#8 then some .sum
  else if op = 0x04#8 then some .reset
  else none

/-- The decode of R104 in its order: opcode, then `RSV`, then `LEN` of a command other than `WRITE`.
The fourth check, `BAD_LENGTH`, belongs to the one opcode `WRITE` and is the first thing `execWrite` does, before
any other check of that command (notes/assumptions/2.md). -/
def decode (w : HostWord) : Except DecodeError Instr :=
  match commandOf (opField w) (lenField w).toNat with
  | none => .error .undefinedOpcode
  | some i =>
    if rsvField w ≠ 0 then .error .reservedBits
    else if opField w ≠ 0x02#8 ∧ lenField w ≠ 0 then .error .unexpectedLength
    else .ok i

/-- The opcode of a command (R103). -/
def opcodeOf : Instr → BitVec 8
  | .init => 0x01#8
  | .write _ => 0x02#8
  | .sum => 0x03#8
  | .reset => 0x04#8

/-- The `LEN` field of a command: the count of `WRITE`, 0 in every other command (R101). -/
def lengthOf : Instr → BitVec 8
  | .init => 0
  | .write n => BitVec.ofNat 8 n
  | .sum => 0
  | .reset => 0

/-- The word of a well-formed command: `RSV` = 0, then `LEN`, then `OP` (R101, R103). -/
def encode (i : Instr) : HostWord := 0#16 ++ lengthOf i ++ opcodeOf i

/-- The bits of an opcode-table word as the 32-bit word the host writes to `CMD`; bits from `nbits` on are 0.
A command is one 32-bit word (R100), so the table's bit numbers are the word's own. -/
def tableWord (nbits w : Nat) : HostWord := BitVec.ofNat 32 (w % 2 ^ nbits)

/-- The command the decoder reads from an opcode-table word, if it reads one. -/
def decodeTableWord (nbits w : Nat) : Option Instr :=
  match decode (tableWord nbits w) with
  | .ok i => some i
  | .error _ => none

end Sys2Proof
end

