-- ==== Sys2Proof/Machine/State.lean ====
section
/-! DEFINITION. The state of the block as plain data, its reset value, and the types the state is made of
(spec/10_state.md). The block has no memory, no program counter and no register file (R20, R21, R60). -/

namespace Sys2Proof.Machine

/-- The result codes of R301. Codes 0x06 to 0xFF are never produced (U12), so they have no constructor. -/
inductive ResultCode where
  /-- 0x00: the command succeeded. -/
  | ok
  /-- 0x01: `INIT` with `CFG.KEYLEN` > 64 (R131). -/
  | keyTooLarge
  /-- 0x02: `INIT` with `CFG.SALTLEN` > 16 (R132). -/
  | saltTooLarge
  /-- 0x03: `WRITE`, `SUM` or `RESET` while `CONF` = 0 (R22). -/
  | notConfigured
  /-- 0x04: an illegal command word (R105). -/
  | illegalCommand
  /-- 0x05: `WRITE` with `LEN` > 128 (R104). -/
  | badLength
deriving DecidableEq, Repr

/-- The registers of the window, by the register map R62; `k` counts the 32-bit words of a register that has several. -/
inductive WindowReg where
  | cmd
  | status
  | cfg
  | size
  | blksz
  | cnt (k : Fin 4)
  | key (k : Fin 16)
  | salt (k : Fin 4)
  | din (k : Fin 32)
  | dout (k : Fin 16)
  | reserved
deriving DecidableEq, Repr

/-- One bus transaction of the register port, always a full 32-bit word (R63, R350: `req`, `we`, `addr`, `wdata`). -/
inductive Transaction where
  /-- `MemRead(BASE + off, 4)` (R11). -/
  | read (off : Offset)
  /-- `MemWrite(BASE + off, 4, w)` (R11). -/
  | write (off : Offset) (w : HostWord)
deriving DecidableEq, Repr

/-- What reaches the block's port from outside, in the order it arrives (R71, R330, R331). -/
inductive HostEvent where
  /-- A transaction is presented and served to its end. -/
  | access (t : Transaction)
  /-- The input `rst` is driven to a level (R330). -/
  | rst (level : Bool)
  /-- `rst` is asserted while the transaction `t` is presented and not yet acknowledged (R331). -/
  | cutOff (t : Transaction)
deriving DecidableEq, Repr

/-- What the port answers when it raises `ack` (R350). -/
inductive Response where
  /-- A read's `rdata`. -/
  | readData (w : HostWord)
  /-- The acknowledgement of a write; a `CMD` write gets it when its command has completed (R340). -/
  | writeAck
deriving DecidableEq, Repr

/-- The hash state: what ENC calls `HashState`, held inside the block and written by commands only (R22 to R30).
`ERR` (R31) stands beside it in `State`. -/
structure HashState where
  /-- `CONF`, the configured flag (R22). -/
  conf : Bool
  /-- `H[0..7]`, the chain values (R23). -/
  h : Vector Word 8
  /-- `HINIT[0..7]`, the snapshot `RESET` restores (R24). -/
  hinit : Vector Word 8
  /-- `T`, the byte counter; `T0` is its low and `T1` its high word (R25). -/
  t : BitVec 128
  /-- `BUF[0..127]`, the staging buffer (R26). -/
  buf : Vector Byte 128
  /-- `OFF`, 0 to 128, the number of significant bytes in `BUF` (R27). -/
  off : Fin 129
  /-- `KEYED` (R28). -/
  keyed : Bool
  /-- `KB[0..127]`, the key padded to one block (R29). -/
  kb : Vector Byte 128
  /-- `DSIZE`, the digest size, 0 before the first successful `INIT` (R30). -/
  dsize : BitVec 7
deriving DecidableEq, Repr

/-- The staging and output registers of the window (R34, R38 to R41). -/
structure HostRegs where
  /-- `CFG[23:0]`; bits [31:24] are reserved and hold no state (R34, R42). -/
  cfg : BitVec 24
  /-- `KEY[0..63]`, the key staging window (R38). -/
  key : Vector Byte 64
  /-- `SALT[0..15]`, the salt staging window (R39). -/
  salt : Vector Byte 16
  /-- `DIN[0..127]`, the message input window (R40). -/
  din : Vector Byte 128
  /-- `DOUT[0..63]`, the digest output window (R41). -/
  dout : Vector Byte 64
deriving DecidableEq, Repr

/-- The port. It belongs to the model, not to the spec's list of registers (notes/assumptions/1.md). -/
structure Port where
  /-- The level of the input `rst` (R330). -/
  rst : Bool
  /-- What has arrived at the port and is not served yet, oldest first (R71). -/
  pending : List HostEvent
  /-- What the port has answered so far, oldest first; the reads among them are what a run observes (R353). -/
  responses : List Response
  /-- How many free values have been used: the index of the next one (notes/assumptions/4.md). -/
  freeIndex : Nat
deriving DecidableEq, Repr

/-- The block together with its port. `CMD`, `STATUS`, `SIZE`, `BLKSZ` and `CNT0` to `CNT3` store nothing of their own
(R32, R33, R35 to R37). -/
structure State where
  /-- The hash state (R22 to R30). -/
  hash : HashState
  /-- `ERR`, the result of the most recent command (R31). -/
  err : ResultCode
  /-- The staging and output registers (R34, R38 to R41). -/
  regs : HostRegs
  /-- What stands at the port and what it has answered. -/
  port : Port
deriving DecidableEq, Repr

/-- The hash state after hardware reset (R48). -/
def HashState.reset : HashState where
  conf := false
  h := Vector.replicate 8 0
  hinit := Vector.replicate 8 0
  t := 0
  buf := Vector.replicate 128 0
  off := 0
  keyed := false
  kb := Vector.replicate 128 0
  dsize := 0

/-- The staging and output registers after hardware reset (R48): `CFG` is 0x00000040, the windows are zero. -/
def HostRegs.reset : HostRegs where
  cfg := 0x000040#24
  key := Vector.replicate 64 0
  salt := Vector.replicate 16 0
  din := Vector.replicate 128 0
  dout := Vector.replicate 64 0

/-- A port at which nothing has happened yet, with `rst` deasserted. -/
def Port.idle : Port where
  rst := false
  pending := []
  responses := []
  freeIndex := 0

/-- The machine after hardware reset: every register at the value R48 gives it, nothing at the port. -/
def State.reset : State where
  hash := HashState.reset
  err := .ok
  regs := HostRegs.reset
  port := Port.idle

/-- Faults: none. "The block raises no exceptions, traps, bus errors or interrupts" (R300), and "a failing command is not a
fault state. It is a value in `ERR`" (R353). The type is empty, so no step of this model ends in a fault. -/
inductive Fault
deriving DecidableEq, Repr

/-- Why the model gives no answer. -/
inductive Refusal where
  /-- An instruction without a meaning. Raised by nobody: every arm of `exec` calls a meaning. Safe. -/
  | notModelled (mnemonic : String)
  /-- A transaction while `rst` is asserted. Raised by `serveEvent`. "A run that accesses the window while `rst` is asserted
  ... is outside the contract. It is refused" (R353, U11). Safe: the machine stops where the spec promises nothing. -/
  | accessDuringReset
deriving DecidableEq, Repr

end Sys2Proof.Machine
end

