-- ==== Sys2Proof/Machine/Bytes.lean ====
section
/-! DEFINITION. Byte order: little-endian words in byte sequences and in the byte windows
(spec/00_scope.md R10, spec/20_memory.md R64, R65). A sequence is written as a table of its elements;
`tabulate` is irreducible, so that comparing two states never unfolds one (Sys2Proof/Laws/Bytes.lean reads it back). -/

namespace Sys2Proof.Machine

/-- The sequence whose element `i` is `f i`. -/
@[irreducible] def tabulate {α : Type} {n : Nat} (f : Fin n → α) : Vector α n := Vector.ofFn f

/-- `zeros(n)` (R10). -/
@[irreducible] def zeros (n : Nat) : Vector Byte n := Vector.replicate n 0

/-- Byte `i` of a byte sequence; every use in the model has `i` below the length. -/
def byteAt {n : Nat} (b : Vector Byte n) (i : Nat) : Byte := b[i]?.getD 0

/-- `LE64(B, k)`: byte `k + j` is bits [8j+7:8j] (R10). -/
@[irreducible] def le64 {n : Nat} (b : Vector Byte n) (k : Nat) : Word :=
  byteAt b (k + 7) ++ byteAt b (k + 6) ++ byteAt b (k + 5) ++ byteAt b (k + 4) ++
    byteAt b (k + 3) ++ byteAt b (k + 2) ++ byteAt b (k + 1) ++ byteAt b k

/-- `LE32(B, k)`: byte `k + j` is bits [8j+7:8j] (R10, R64). -/
@[irreducible] def le32 {n : Nat} (b : Vector Byte n) (k : Nat) : HostWord :=
  byteAt b (k + 3) ++ byteAt b (k + 2) ++ byteAt b (k + 1) ++ byteAt b k

/-- Byte `j` of `LEBYTES64(w)`: bits [8j+7:8j] (R10). -/
def wordByte (w : Word) (j : Nat) : Byte := w.extractLsb' (8 * j) 8

/-- Byte `j` of `LEBYTES32(w)`: bits [8j+7:8j] (R10). -/
def hostByte (w : HostWord) (j : Nat) : Byte := w.extractLsb' (8 * j) 8

/-- `W[k .. k+4) <- LEBYTES32(w)` on a byte window (R64, R282). -/
def storeWord {n : Nat} (win : Vector Byte n) (k : Nat) (w : HostWord) : Vector Byte n :=
  tabulate fun i : Fin n => if k ≤ i.val ∧ i.val < k + 4 then hostByte w (i.val - k) else win[i]

/-- `LEBYTES64(h[0]) ‖ … ‖ LEBYTES64(h[7])`: byte `8i + j` is `h[i][8j+7:8j]` (R236). -/
def serialize (h : Vector Word 8) : Vector Byte 64 :=
  tabulate fun k : Fin 64 => wordByte (h[k.val / 8]'(by omega)) (k.val % 8)

end Sys2Proof.Machine
end

