-- ==== Sys2Proof/Machine/Compression.lean ====
section
/-! DEFINITION. The compression core: the constants, the mixing step G and the compression function F
(spec/41_compression.md R160 to R171). -/

namespace Sys2Proof.Machine

/-- `IV[0..7]` (R160). -/
def iv : Vector Word 8 :=
  #v[0x6a09e667f3bcc908, 0xbb67ae8584caa73b, 0x3c6ef372fe94f82b, 0xa54ff53a5f1d36f1,
     0x510e527fade682d1, 0x9b05688c2b3e6c1f, 0x1f83d9abfb41bd6b, 0x5be0cd19137e2179]

/-- `SIGMA[0..9][0..15]` (R161). -/
def sigma : Vector (Vector (Fin 16) 16) 10 :=
  #v[#v[0, 1, 2, 3, 4, 5, 6, 7, 8, 9, 10, 11, 12, 13, 14, 15],
     #v[14, 10, 4, 8, 9, 15, 13, 6, 1, 12, 0, 2, 11, 7, 5, 3],
     #v[11, 8, 12, 0, 5, 2, 15, 13, 10, 14, 3, 6, 7, 1, 9, 4],
     #v[7, 9, 3, 1, 13, 12, 11, 14, 2, 6, 5, 10, 4, 0, 15, 8],
     #v[9, 0, 5, 7, 2, 4, 10, 15, 14, 1, 11, 12, 6, 8, 3, 13],
     #v[2, 12, 6, 10, 0, 11, 8, 3, 4, 13, 7, 5, 15, 14, 1, 9],
     #v[12, 5, 1, 15, 14, 13, 4, 10, 0, 7, 6, 3, 9, 2, 8, 11],
     #v[13, 11, 7, 14, 12, 1, 3, 9, 5, 0, 15, 4, 8, 6, 2, 10],
     #v[6, 15, 14, 9, 11, 3, 0, 8, 12, 2, 13, 7, 1, 4, 10, 5],
     #v[10, 2, 8, 4, 7, 6, 1, 5, 15, 11, 9, 14, 3, 12, 13, 0]]

/-- `QUAD[0..7]`: four column quadruples, then four diagonal ones (R163). -/
def quad : Vector (Fin 16 × Fin 16 × Fin 16 × Fin 16) 8 :=
  #v[(0, 4, 8, 12), (1, 5, 9, 13), (2, 6, 10, 14), (3, 7, 11, 15),
     (0, 5, 10, 15), (1, 6, 11, 12), (2, 7, 8, 13), (3, 4, 9, 14)]

/-- `rotr64(x, n)`, for 1 ≤ n ≤ 63 (R9). -/
def rotr64 (x : Word) (n : Nat) : Word := (x >>> n) ||| (x <<< (64 - n))

/-- The mixing step `G(a, b, c, d, x, y)`, its four lines in order (R162). -/
def mixG (a b c d x y : Word) : Word × Word × Word × Word :=
  let a := (a + b) + x
  let d := rotr64 (d ^^^ a) 32
  let c := c + d
  let b := rotr64 (b ^^^ c) 24
  let a := (a + b) + y
  let d := rotr64 (d ^^^ a) 16
  let c := c + d
  let b := rotr64 (b ^^^ c) 63
  (a, b, c, d)

/-- Step `i` of a round with permutation `s`: G on the words `QUAD[i]` of `v` with `m[s[2i]]` and `m[s[2i+1]]` (R163, R168). -/
def mixStep (m : Vector Word 16) (s : Vector (Fin 16) 16) (v : Vector Word 16) (i : Fin 8) : Vector Word 16 :=
  match quad[i] with
  | (a, b, c, d) =>
    match mixG v[a] v[b] v[c] v[d] m[s[2 * i.val]] m[s[2 * i.val + 1]] with
    | (a', b', c', d') => (((v.set a a').set b b').set c c').set d d'

/-- Round `r`: the eight steps in order, with permutation `SIGMA[r mod 10]` (R161, R168). -/
def mixRound (m : Vector Word 16) (v : Vector Word 16) (r : Fin 12) : Vector Word 16 :=
  (List.finRange 8).foldl (mixStep m (sigma[r.val % 10]'(Nat.mod_lt _ (by decide)))) v

/-- `T[63:0]` (R25). -/
def lowWord (t : BitVec 128) : Word := t.extractLsb' 0 64

/-- `T[127:64]` (R25). -/
def highWord (t : BitVec 128) : Word := t.extractLsb' 64 64

/-- The working vector after steps 1 and 2: `h`, then `IV` with the counter in words 12 and 13 and word 14 inverted for the
last block (R165, R166). -/
def workingVector (h : Vector Word 8) (t : BitVec 128) (last : Bool) : Vector Word 16 :=
  #v[h[0], h[1], h[2], h[3], h[4], h[5], h[6], h[7],
     iv[0], iv[1], iv[2], iv[3],
     iv[4] ^^^ lowWord t, iv[5] ^^^ highWord t, if last then ~~~iv[6] else iv[6], iv[7]]

/-- `m[j] = LE64(block, 8j)` (R167). -/
def messageWords (block : Vector Byte 128) : Vector Word 16 :=
  tabulate fun j : Fin 16 => le64 block (8 * j.val)

/-- The working vector after all 12 rounds (R168). -/
@[irreducible] def mixRounds (m : Vector Word 16) (v : Vector Word 16) : Vector Word 16 :=
  (List.finRange 12).foldl (mixRound m) v

/-- The compression function `F(h, t, block, last)` (R164, R169, R171). -/
def compressF (h : Vector Word 8) (t : BitVec 128) (block : Vector Byte 128) (last : Bool) : Vector Word 8 :=
  let v := mixRounds (messageWords block) (workingVector h t last)
  tabulate fun i : Fin 8 => h[i] ^^^ v[i.val]'(by omega) ^^^ v[i.val + 8]'(by omega)

end Sys2Proof.Machine
end

