-- ==== Sys2Proof/Machine/Operands.lean ====
section
/-! DEFINITION. What the commands read: the fields of `CFG`, the parameter block, the key block and the first bytes of `DIN`
(spec/10_state.md R34, spec/40_param_block.md R130 to R135, spec/42_absorb.md R204). -/

namespace Sys2Proof.Machine

/-- `CFG.DSIZE_REQ = CFG[7:0]` (R34). -/
def digestRequest (r : HostRegs) : Byte := r.cfg.extractLsb' 0 8

/-- `CFG.KEYLEN = CFG[15:8]` (R34). -/
def keyLength (r : HostRegs) : Byte := r.cfg.extractLsb' 8 8

/-- `CFG.SALTLEN = CFG[23:16]` (R34). -/
def saltLength (r : HostRegs) : Byte := r.cfg.extractLsb' 16 8

/-- The configured digest size: the request if it is 1 to 64, else 64 (R130). -/
def clampDigestSize (dreq : Byte) : BitVec 7 :=
  if 1 ≤ dreq.toNat ∧ dreq.toNat ≤ 64 then dreq.setWidth 7 else 64#7

/-- The parameter block `P` for digest size `ds`, key length `kl` and the first `sl` bytes of `salt` (R133). -/
def paramBlock (ds : BitVec 7) (kl : Byte) (sl : Nat) (salt : Vector Byte 16) : Vector Byte 128 :=
  tabulate fun i : Fin 128 =>
    if i.val = 0 then ds.setWidth 8
    else if i.val = 1 then kl
    else if i.val = 2 then 1
    else if i.val = 3 then 1
    else if 32 ≤ i.val ∧ i.val < 32 + sl then byteAt salt (i.val - 32)
    else 0

/-- The initial chain values `IV[i] ^ LE64(P, 8i)` (R134). -/
def initialChain (p : Vector Byte 128) : Vector Word 8 :=
  tabulate fun i : Fin 8 => iv[i] ^^^ le64 p (8 * i.val)

/-- The key block: the first `kl` bytes of `KEY`, then zeros (R135). -/
def keyBlock (kl : Nat) (key : Vector Byte 64) : Vector Byte 128 :=
  tabulate fun i : Fin 128 => if i.val < kl then byteAt key i.val else 0

/-- `DIN[0..n)`, the operand bytes of `WRITE n` (R204). -/
def inputBytes (n : Nat) (r : HostRegs) : List Byte := r.din.toList.take n

end Sys2Proof.Machine
end

