-- ==== Sys2Proof/Machine/Ops.lean ====
section
/-! DEFINITION. The shared operations: reporting an error, completing a command, the counter arithmetic, the block state
machine, key absorption and hardware reset (spec/42_absorb.md, spec/60_exceptions.md, spec/70_reset_and_hazards.md). -/

namespace Sys2Proof.Machine

/-- `raise CmdError(code)`: `ERR` takes the code and nothing else changes (R11, R302). This is the block's whole error
mechanism: it has no trap entry and no return from one (R300, R307). -/
def State.raiseCmdError (code : ResultCode) (s : State) : State := { s with err := code }

/-- A command that succeeds ends with `ERR <- OK` (R303). -/
def State.completeOk (s : State) : State := { s with err := .ok }

/-- A command that needs `CONF` = 1: `NOT_CONFIGURED` without it, else its effect and `ERR <- OK` (R22, R301). -/
def State.whenConfigured (effect : State → State) (s : State) : State :=
  if s.hash.conf then (effect s).completeOk else s.raiseCmdError .notConfigured

/-- `DOUT` takes a value; no other register does. -/
def State.setDigest (d : Vector Byte 64) (s : State) : State := { s with regs := { s.regs with dout := d } }

/-- The hash state takes a value; nothing else changes. -/
def State.setHash (x : HashState) (s : State) : State := { s with hash := x }

/-- `add128(t, 128)` on the two 64-bit words, with the carry out of the low word (R201). -/
def advanceCounter (t : BitVec 128) : BitVec 128 :=
  let t0 := lowWord t + 128
  let t1 := if t0 < 128 then highWord t + 1 else highWord t
  t1 ++ t0

/-- `sub128(t, diff)` on the two 64-bit words, with the borrow from the high word (R232). -/
def correctCounter (t : BitVec 128) (diff : Word) : BitVec 128 :=
  let t1 := if lowWord t < diff then highWord t - 1 else highWord t
  let t0 := lowWord t - diff
  t1 ++ t0

/-- `CompressBlock`: advance the counter, compress `BUF` as a non-final block, empty the buffer (R200). -/
def HashState.compressBlock (x : HashState) : HashState :=
  let t := advanceCounter x.t
  { x with t := t, h := compressF x.h t x.buf false, off := 0 }

/-- One iteration of `Absorb`: a full buffer is compressed only now that a further byte follows it (R202). -/
def HashState.absorbByte (x : HashState) (b : Byte) : HashState :=
  let x := if x.off = 128 then x.compressBlock else x
  { x with buf := x.buf.setIfInBounds x.off.val b, off := x.off + 1 }

/-- `Absorb(p)`: the bytes one at a time, in order (R202). -/
def HashState.absorb (x : HashState) (p : List Byte) : HashState := p.foldl HashState.absorbByte x

/-- An empty hash at the chain values `h`: the common start of `INIT` and `RESET` (R140, R260). -/
def HashState.start (h : Vector Word 8) (x : HashState) : HashState :=
  { x with h := h, t := 0, buf := zeros 128, off := 0 }

/-- In a keyed state, absorb the key block as the first message block (R137, R260). -/
def HashState.absorbKey (x : HashState) : HashState :=
  if x.keyed then x.absorb x.kb.toList else x

/-- Hardware reset: every register takes the value of R48; what stands at the port stays (R330). -/
def State.hardwareReset (s : State) : State := { State.reset with port := s.port }

end Sys2Proof.Machine
end

