-- ==== Sys2Proof/Machine/Absorb.lean ====
section
/-! DEFINITION. Family absorption: the meaning of `WRITE n` (spec/42_absorb.md R204). -/

namespace Sys2Proof.Machine

/-- `WRITE n`: a count above 128 is `BAD_LENGTH`, before any other check; else absorb `DIN[0..n)` (R104, R204, R304). -/
def execWrite (n : Nat) (s : State) : Host.Outcome State Fault Refusal :=
  if 128 < n then .next (s.raiseCmdError .badLength)
  else .next (s.whenConfigured fun s => s.setHash (s.hash.absorb (inputBytes n s.regs)))

end Sys2Proof.Machine
end

