-- ==== Sys2Proof/Machine/Configure.lean ====
section
/-! DEFINITION. Family configuration: the meaning of `INIT` (spec/40_param_block.md R130 to R141). -/

namespace Sys2Proof.Machine

/-- The validation of `INIT`: the key length first, then the salt length; the code of the first check that fails
(R131, R132, R304). -/
def configError (r : HostRegs) : Option ResultCode :=
  if 64 < (keyLength r).toNat then some .keyTooLarge
  else if 16 < (saltLength r).toNat then some .saltTooLarge
  else none

/-- The chain values that the configuration in `CFG` and `SALT` gives (R130, R133, R134). -/
def configuredChain (r : HostRegs) : Vector Word 8 :=
  initialChain (paramBlock (clampDigestSize (digestRequest r)) (keyLength r) (saltLength r).toNat r.salt)

/-- The hash state set up from `CFG`, `KEY` and `SALT`, before the key is absorbed (R140). -/
def HashState.configure (r : HostRegs) (x : HashState) : HashState :=
  { x.start (configuredChain r) with
    kb := keyBlock (keyLength r).toNat r.key
    keyed := decide (0 < (keyLength r).toNat)
    dsize := clampDigestSize (digestRequest r)
    conf := true }

/-- `HINIT <- H` (R138). -/
def HashState.takeSnapshot (x : HashState) : HashState := { x with hinit := x.h }

/-- `INIT` (R140). -/
def execInit (s : State) : Host.Outcome State Fault Refusal :=
  match configError s.regs with
  | some code => .next (s.raiseCmdError code)
  | none =>
    .next ((s.setHash (s.hash.configure s.regs).absorbKey.takeSnapshot).setDigest (zeros 64)).completeOk

end Sys2Proof.Machine
end

