-- ==== Sys2Proof/Machine/Finalize.lean ====
section
/-! DEFINITION. Family finalization: the meaning of `SUM` (spec/43_finalize.md R230 to R238). -/

namespace Sys2Proof.Machine

/-- The counter the final compression reads: corrected by `128 - OFF`, then advanced by 128 (R231, R232, R234). -/
def finalCounter (t : BitVec 128) (off : Fin 129) : BitVec 128 :=
  advanceCounter (correctCounter t (BitVec.ofNat 64 (128 - off.val)))

/-- The final block: `BUF[0..OFF)`, then zeros (R233). -/
def finalBlock (buf : Vector Byte 128) (off : Fin 129) : Vector Byte 128 :=
  tabulate fun k : Fin 128 => if k.val < off.val then buf[k] else 0

/-- The chain values after the final compression, computed on a private copy (R230, R234). -/
def finalChain (x : HashState) : Vector Word 8 :=
  compressF x.h (finalCounter x.t x.off) (finalBlock x.buf x.off) true

/-- The contents of `DOUT`: the serialized chain values up to `DSIZE`, then zeros (R236, R237). -/
def digestWindow (dsize : BitVec 7) (h : Vector Word 8) : Vector Byte 64 :=
  tabulate fun i : Fin 64 => if i.val < dsize.toNat then (serialize h)[i] else 0

/-- `SUM` writes only `DOUT` and `ERR` (R230, R238). -/
def execSum (s : State) : Host.Outcome State Fault Refusal :=
  .next (s.whenConfigured fun s => s.setDigest (digestWindow s.hash.dsize (finalChain s.hash)))

end Sys2Proof.Machine
end

