-- ==== Sys2Proof/Machine/ResetCommand.lean ====
section
/-! DEFINITION. Family reset: the meaning of the command `RESET` (spec/44_reset_cmd.md R260). It is not hardware reset
(spec/70_reset_and_hazards.md R332). -/

namespace Sys2Proof.Machine

/-- `RESET`: restore `HINIT`, empty the hash, re-absorb the key if there is one (R260). -/
def execReset (s : State) : Host.Outcome State Fault Refusal :=
  .next (s.whenConfigured fun s =>
    (s.setHash (s.hash.start s.hash.hinit).absorbKey).setDigest (zeros 64))

end Sys2Proof.Machine
end

