-- ==== Sys2Proof/Machine/Flags.lean ====
section
/-! DEFINITION. The status flags and the result code as the host sees them. The block has no condition codes or arithmetic
flags; its only flags are the fields of `STATUS` (spec/10_state.md R33, R47, spec/60_exceptions.md R301). -/

namespace Sys2Proof.Machine

/-- The 8-bit code of a result (R301). -/
def resultByte : ResultCode → BitVec 8
  | .ok => 0x00#8
  | .keyTooLarge => 0x01#8
  | .saltTooLarge => 0x02#8
  | .notConfigured => 0x03#8
  | .illegalCommand => 0x04#8
  | .badLength => 0x05#8

/-- `STATUS = {8'h00, ERR, OFF, 6'b000000, KEYED, CONF}` (R33, R281). -/
def statusWord (s : State) : HostWord :=
  0#8 ++ resultByte s.err ++ BitVec.ofNat 8 s.hash.off.val ++ 0#6 ++
    BitVec.ofBool s.hash.keyed ++ BitVec.ofBool s.hash.conf

/-- `SIZE`: `zext_32(DSIZE)` when configured, else 0 (R35, R285). -/
def sizeWord (s : State) : HostWord := if s.hash.conf then s.hash.dsize.setWidth 32 else 0

/-- `CNTk`: `T[32k+31:32k]` (R37, R281). -/
def countWord (s : State) (k : Nat) : HostWord := s.hash.t.extractLsb' (32 * k) 32

end Sys2Proof.Machine
end

