-- ==== Sys2Proof/Machine/Window.lean ====
section
/-! DEFINITION. The register window: offset decode, register reads and staging writes
(spec/20_memory.md R61, R62, R64, spec/45_host_access.md R281, R282). -/

namespace Sys2Proof.Machine

/-- `off & 0x1FC`: bits [1:0] of an offset are ignored (R61). -/
def wordOffset (off : Offset) : Nat := (off &&& 0x1FC#9).toNat

/-- The register at an offset, by the register map (R62). -/
def regAt (off : Offset) : WindowReg :=
  let o := wordOffset off
  if o = 0x000 then .cmd
  else if o = 0x004 then .status
  else if o = 0x008 then .cfg
  else if o = 0x00C then .size
  else if o = 0x010 then .blksz
  else if h : 0x020 ≤ o ∧ o ≤ 0x02C then .cnt ⟨(o - 0x020) / 4, by omega⟩
  else if h : 0x040 ≤ o ∧ o ≤ 0x07C then .key ⟨(o - 0x040) / 4, by omega⟩
  else if h : 0x080 ≤ o ∧ o ≤ 0x08C then .salt ⟨(o - 0x080) / 4, by omega⟩
  else if h : 0x100 ≤ o ∧ o ≤ 0x17C then .din ⟨(o - 0x100) / 4, by omega⟩
  else if h : 0x180 ≤ o ∧ o ≤ 0x1BC then .dout ⟨(o - 0x180) / 4, by omega⟩
  else .reserved

/-- What a read of a register returns (R281): write-only and reserved registers read 0. -/
def readReg (r : WindowReg) (s : State) : HostWord :=
  match r with
  | .cmd => 0
  | .status => statusWord s
  | .cfg => 0#8 ++ s.regs.cfg
  | .size => sizeWord s
  | .blksz => 0x00000080
  | .cnt k => countWord s k.val
  | .key _ => 0
  | .salt k => le32 s.regs.salt (4 * k.val)
  | .din k => le32 s.regs.din (4 * k.val)
  | .dout k => le32 s.regs.dout (4 * k.val)
  | .reserved => 0

/-- The staging registers take a value; nothing else changes. -/
def State.setRegs (r : HostRegs) (s : State) : State := { s with regs := r }

/-- What a write to a register other than `CMD` does (R282): `CFG` keeps bits [23:0]; `KEY`, `SALT` and `DIN` store the word;
every other register ignores it. A write to `CMD` stores nothing (R32): it issues a command, see `serveAccess`. -/
def writeReg (r : WindowReg) (w : HostWord) (s : State) : State :=
  match r with
  | .cmd => s
  | .status => s
  | .cfg => s.setRegs { s.regs with cfg := w.extractLsb' 0 24 }
  | .size => s
  | .blksz => s
  | .cnt _ => s
  | .key k => s.setRegs { s.regs with key := storeWord s.regs.key (4 * k.val) w }
  | .salt k => s.setRegs { s.regs with salt := storeWord s.regs.salt (4 * k.val) w }
  | .din k => s.setRegs { s.regs with din := storeWord s.regs.din (4 * k.val) w }
  | .dout _ => s
  | .reserved => s

end Sys2Proof.Machine
end

