-- ==== Sys2Proof/Machine/Bus.lean ====
section
/-! DEFINITION. The port: how the block serves what arrives at it, one transaction at a time and in order of arrival
(spec/20_memory.md R71, R72, spec/45_host_access.md R281 to R283, spec/70_reset_and_hazards.md R330, R331, R340). -/

namespace Sys2Proof.Machine

/-- The port raises `ack` with a response (R350). -/
def State.respond (r : Response) (s : State) : State := { s with port := { s.port with responses := s.port.responses ++ [r] } }

/-- The input `rst` is driven to a level (R330). -/
def State.setRst (level : Bool) (s : State) : State := { s with port := { s.port with rst := level } }

/-- The events still waiting at the port. -/
def State.setPending (es : List HostEvent) (s : State) : State := { s with port := { s.port with pending := es } }

/-- A command's outcome, acknowledged once the command has completed (R72, R340). -/
def acknowledge (o : Host.Outcome State Fault Refusal) : Host.Outcome State Fault Refusal :=
  match o with
  | .next s => .next (s.respond .writeAck)
  | .fault r => .fault r
  | .refused r => .refused r

/-- A write of `w` to `CMD`: decode, then the command; an illegal word executes as `raise CmdError(ILLEGAL_COMMAND)`
(R104, R105, R283). -/
def runCommand (w : HostWord) (s : State) : Host.Outcome State Fault Refusal :=
  match decode w with
  | .ok i => exec i s
  | .error _ => .next (s.raiseCmdError .illegalCommand)

/-- One whole transaction with `rst` deasserted (R281, R282, R283). -/
def serveAccess (t : Transaction) (s : State) : Host.Outcome State Fault Refusal :=
  match t with
  | .read off => .next (s.respond (.readData (readReg (regAt off) s)))
  | .write off w =>
    match regAt off with
    | .cmd => acknowledge (runCommand w s)
    | r => .next ((writeReg r w s).respond .writeAck)

/-- What the bus answers to a transaction that hardware reset cut off: OPEN, so a free value (R331, D36). -/
def State.respondCutOff (t : Transaction) (s : State) : State :=
  let k := s.port.freeIndex
  let s := { s with port := { s.port with freeIndex := k + 1 } }
  if Config.cutOffAcked k then
    match t with
    | .read _ => s.respond (.readData (Config.cutOffData k))
    | .write _ _ => s.respond .writeAck
  else s

/-- One event at the port. While `rst` is asserted and on its deassertion every register holds its reset value (R330); a
transaction presented while `rst` is asserted is outside the contract and refused (R353, U11); a transaction that `rst` cuts
off leaves exactly the reset state (R331). -/
def serveEvent (e : HostEvent) (s : State) : Host.Outcome State Fault Refusal :=
  match e with
  | .access t => if s.port.rst then .refused .accessDuringReset else serveAccess t s
  | .rst level => if level || s.port.rst then .next (s.hardwareReset.setRst level) else .next s
  | .cutOff t =>
    if s.port.rst then .refused .accessDuringReset
    else .next ((s.hardwareReset.respondCutOff t).setRst true)

/-- Serve the oldest pending event. With none pending the block is quiescent: its state changes only on the next host access
(R353). -/
def serveNext (s : State) : Host.Outcome State Fault Refusal :=
  match s.port.pending with
  | [] => .next s
  | e :: rest => serveEvent e (s.setPending rest)

/-- `s` with the command word `w` presented at the port, as a write to `CMD`, before everything else that is pending and with
`rst` deasserted. -/
def State.presentCommand (w : HostWord) (s : State) : State :=
  (s.setPending (.access (.write 0x000#9 w) :: s.port.pending)).setRst false

end Sys2Proof.Machine
end

