-- ==== Sys2Proof/Machine/Step.lean ====
section
/-! DEFINITION. One step of the machine: one event at the port, served to its end (spec/20_memory.md R71). -/

namespace Sys2Proof.Machine

/-- One step: the oldest pending event is served whole before the next begins (R71, R72). -/
def step (s : State) : Host.Outcome State Fault Refusal := serveNext s

/-- `s` with an opcode-table word as the next thing the block serves: a host write of that word to `CMD`. The block fetches
nothing (R21); this stands for the host's `MemWrite(BASE + 0x000, 4, w)` (notes/assumptions/1.md). -/
def State.withFetchWord (s : State) (nbits w : Nat) : State := s.presentCommand (tableWord nbits w)

end Sys2Proof.Machine
end

