-- ==== Sys2Proof/Machine/HostProgram.lean ====
section
/-! DEFINITION. Host programs: the assembler lines and the macros of spec/30_encoding.md R107 and R108, as lists of events for
the port. No rule of the block depends on them; they say how a host drives it. -/

namespace Sys2Proof.Machine

/-- The bus address `BASE + off` (R11, R60). -/
def busAddress (off : Offset) : Nat := Config.base + off.toNat

/-- The window offset the port sees of a bus address: its bits [8:0], since `BASE` is 512-byte aligned (R61). -/
def portOffset (address : Nat) : Offset := BitVec.ofNat 9 address

/-- `wr OFF, VALUE` (R107). -/
def wr (off : Nat) (w : HostWord) : HostEvent :=
  .access (.write (portOffset (busAddress (BitVec.ofNat 9 off))) w)

/-- `rd OFF` (R107). -/
def rd (off : Nat) : HostEvent := .access (.read (portOffset (busAddress (BitVec.ofNat 9 off))))

/-- `INIT`, `WRITE n`, `SUM` and `RESET` as host lines: a write of the command's word to `CMD` (R107). -/
def issue (i : Instr) : HostEvent := wr 0x000 (encode i)

/-- `LE32(pad4(bytes), k)`: four bytes of a byte string padded with zeros (R108). -/
def packWord (bytes : List Byte) (k : Nat) : HostWord :=
  (bytes[k + 3]?.getD 0) ++ (bytes[k + 2]?.getD 0) ++ (bytes[k + 1]?.getD 0) ++ (bytes[k]?.getD 0)

/-- `wr W + 4k, LE32(pad4(bytes), 4k)` for k = 0 .. ⌈n/4⌉ − 1 (R108). -/
def loadWindow (first : Nat) (bytes : List Byte) : List HostEvent :=
  (List.range ((bytes.length + 3) / 4)).map fun k => wr (first + 4 * k) (packWord bytes (4 * k))

/-- `CONFIG ds, key, salt` (R108). -/
def configMacro (ds : Nat) (key salt : List Byte) : List HostEvent :=
  wr 0x008 (BitVec.ofNat 32 (ds ||| (key.length <<< 8) ||| (salt.length <<< 16))) ::
    (loadWindow 0x040 key ++ loadWindow 0x080 salt)

/-- `ABSORB bytes`, for at most 128 bytes (R108). -/
def absorbMacro (bytes : List Byte) : List HostEvent :=
  loadWindow 0x100 bytes ++ [issue (.write bytes.length)]

/-- Successive chunks of at most 128 bytes, at most `fuel` of them. -/
def chunks : Nat → List Byte → List (List Byte)
  | 0, _ => []
  | _ + 1, [] => []
  | fuel + 1, b :: bytes => (b :: bytes).take 128 :: chunks fuel ((b :: bytes).drop 128)

/-- `ABSORB_ALL bytes` (R108); as many chunks as bytes are always enough. -/
def absorbAllMacro (bytes : List Byte) : List HostEvent :=
  (chunks bytes.length bytes).flatMap absorbMacro

/-- `DIGEST`: `SUM`, then sixteen reads of `DOUT` (R108). -/
def digestMacro : List HostEvent :=
  issue .sum :: (List.range 16).map fun k => rd (0x180 + 4 * k)

/-- `MAC key, msg, ds` (R108). -/
def macMacro (key msg : List Byte) (ds : Nat) : List HostEvent :=
  configMacro ds key [] ++ [issue .init] ++ absorbAllMacro msg ++ digestMacro

/-- The digest a host assembles from the words it read: `(LEBYTES32(w_0) ‖ … ‖ LEBYTES32(w_15))[0..ds)` (R108). -/
def assembleDigest (words : List HostWord) (ds : Nat) : List Byte :=
  (words.flatMap fun w => [hostByte w 0, hostByte w 1, hostByte w 2, hostByte w 3]).take ds

/-- The values the reads of a run returned, oldest first (R353). -/
def observedReads (s : State) : List HostWord :=
  s.port.responses.filterMap fun r =>
    match r with
    | .readData w => some w
    | .writeAck => none

end Sys2Proof.Machine
end

