-- ==== Sys2Proof/Safety.lean ====
section
/-! DEFINITION. The terms claims about the block are stated in: runs, the invariants of spec/10_state.md R46, what two states
share, and BLAKE2b written block by block. -/

namespace Sys2Proof.Machine

/-- `n` steps; it stops at the first refusal (R353). -/
def run : Nat → State → Host.Outcome State Fault Refusal
  | 0, s => .next s
  | n + 1, s =>
    match step s with
    | .next t => run n t
    | .fault r => .fault r
    | .refused r => .refused r

/-- `s` with a host program at the port, in place of whatever was pending. -/
def State.withProgram (program : List HostEvent) (s : State) : State := s.setPending program

/-- A host program, run to its end (R353). -/
def runProgram (program : List HostEvent) (s : State) : Host.Outcome State Fault Refusal :=
  run program.length (s.withProgram program)

/-- A byte window with `bytes` stored from its first byte on, and the rest of it as it was. -/
def overwrite {n : Nat} (bytes : List Byte) (win : Vector Byte n) : Vector Byte n :=
  tabulate fun i : Fin n => bytes[i.val]?.getD win[i]

/-- The host stores `bytes` in `DIN`, leaving the rest of `DIN` as it is. -/
def State.loadInput (bytes : List Byte) (s : State) : State :=
  s.setRegs { s.regs with din := overwrite bytes s.regs.din }

/-- For each chunk in order: load it into `DIN`, then `WRITE` its length (R205). -/
def writeChunks : List (List Byte) → State → Host.Outcome State Fault Refusal
  | [], s => .next s
  | c :: cs, s =>
    match exec (.write c.length) (s.loadInput c) with
    | .next t => writeChunks cs t
    | .fault r => .fault r
    | .refused r => .refused r

/-- Every register holds its reset value; nothing is said of the port (R48). -/
def State.AtReset (s : State) : Prop := s = s.hardwareReset

/-- Agreement on every hash-state field of R22 to R31 and on `DOUT` (R261). -/
def SameHash (a b : State) : Prop := a.hash = b.hash ∧ a.err = b.err ∧ a.regs.dout = b.regs.dout

/-- The invariants of the hash state and the digest window, R46 and R29. R46(c) holds by the type of `off`. -/
structure HashInv (x : HashState) (dout : Vector Byte 64) : Prop where
  /-- R46(a). -/
  unconfigured : x.conf = false →
    x.h = Vector.replicate 8 0 ∧ x.hinit = Vector.replicate 8 0 ∧ x.t = 0 ∧ x.off = 0 ∧ x.keyed = false ∧
      x.kb = zeros 128 ∧ x.dsize = 0 ∧ dout = zeros 64
  /-- R46(b). -/
  digestSize : x.conf = true → 1 ≤ x.dsize.toNat ∧ x.dsize.toNat ≤ 64
  /-- R46(d). -/
  counterAligned : 128 ∣ x.t.toNat
  /-- R46(e) and (f). -/
  emptyBuffer : x.off = 0 → x.t = 0 ∧ x.keyed = false
  /-- R46(g) and R29, with R134 and R138: the snapshot comes from a legal configuration, and the key block is zero from its key
  length on. -/
  configuration : x.conf = true →
    ∃ (kl : Byte) (sl : Nat) (salt : Vector Byte 16), kl.toNat ≤ 64 ∧ sl ≤ 16 ∧
      x.keyed = decide (1 ≤ kl.toNat) ∧ x.hinit = initialChain (paramBlock x.dsize kl sl salt) ∧
      ∀ i : Fin 128, kl.toNat ≤ i.val → x.kb[i] = 0
  /-- R29. -/
  keyBlockTail : ∀ i : Fin 128, 64 ≤ i.val → x.kb[i] = 0
  /-- R29. -/
  keyBlockUnkeyed : x.keyed = false → x.kb = zeros 128
  /-- R46(h). -/
  digestTail : ∀ i : Fin 64, x.dsize.toNat ≤ i.val → dout[i] = 0

/-- The invariant of the whole machine: R46 and R29, and R330's "while `rst` is asserted ... every piece of state takes the
reset value". -/
structure Inv (s : State) : Prop where
  hash : HashInv s.hash s.regs.dout
  heldInReset : s.port.rst = true → s.AtReset

/-- An event that issues no `INIT` and does not reset the block: every register access, and every command word that is not
`INIT`'s. -/
def keepsConfiguration : HostEvent → Bool
  | .access (.read _) => true
  | .access (.write off w) => !(decide (regAt off = .cmd) && decide (decode w = .ok .init))
  | .rst _ => false
  | .cutOff _ => false

/-- Block `i` of a byte stream, padded with zeros. -/
def streamBlock (stream : List Byte) (i : Nat) : Vector Byte 128 :=
  tabulate fun k : Fin 128 => stream[128 * i + k.val]?.getD 0

/-- How many blocks of a stream of `n` bytes are compressed as non-final blocks: ⌈n/128⌉ − 1, and 0 for n = 0 (R203). -/
def nonFinalBlocks (n : Nat) : Nat := (n - 1) / 128

/-- BLAKE2b of a byte stream from the chain values `h`, written block by block: every block but the last with the count of bytes
up to its end, the last one with the total length and the finalization flag (R200, R203, R235). -/
def referenceChain (h : Vector Word 8) (stream : List Byte) : Vector Word 8 :=
  let k := nonFinalBlocks stream.length
  let chain := (List.range k).foldl
    (fun h i => compressF h (BitVec.ofNat 128 (128 * (i + 1))) (streamBlock stream i) false) h
  compressF chain (BitVec.ofNat 128 stream.length) (streamBlock stream k) true

/-- The 64 bytes before truncation of the BLAKE2b digest with digest size `ds` of `msg` under a key and a salt: the padded key is
the first block if there is a key (R133, R134, R137, R236). -/
def referenceDigest (ds : BitVec 7) (key salt msg : List Byte) : Vector Byte 64 :=
  let keyVec : Vector Byte 64 := tabulate fun i : Fin 64 => key[i.val]?.getD 0
  let saltVec : Vector Byte 16 := tabulate fun i : Fin 16 => salt[i.val]?.getD 0
  let h := initialChain (paramBlock ds (BitVec.ofNat 8 key.length) salt.length saltVec)
  let stream := if key.length = 0 then msg else (keyBlock key.length keyVec).toList ++ msg
  serialize (referenceChain h stream)

end Sys2Proof.Machine
end

