-- ==== Sys2Proof/Certificates/Slice0/Obligations.lean ====
section
/-! DEFINITION. The statements for the provers, one definition each. Each docstring cites the rules of spec/ it formalises. -/

open Sys2Proof Sys2Proof.Machine

/-! ## Command words -/

/-- R103, R104, R106: command words written out from the spec's encoding decode to the commands they stand for, and the illegal
words of the spec's decode table do not decode. -/
def Obligations.DecodeReadsSpecWords : Prop :=
  decode 0x00000001#32 = .ok .init ∧
  decode 0x00000002#32 = .ok (.write 0) ∧
  decode 0x00000302#32 = .ok (.write 3) ∧
  decode 0x00008002#32 = .ok (.write 128) ∧
  decode 0x00008102#32 = .ok (.write 129) ∧
  decode 0x0000FF02#32 = .ok (.write 255) ∧
  decode 0x00000003#32 = .ok .sum ∧
  decode 0x00000004#32 = .ok .reset ∧
  decode 0x00000103#32 = .error .unexpectedLength ∧
  decode 0x00010001#32 = .error .reservedBits ∧
  decode 0x00010002#32 = .error .reservedBits ∧
  decode 0x00000000#32 = .error .undefinedOpcode ∧
  decode 0x00000005#32 = .error .undefinedOpcode ∧
  decode 0x00012345#32 = .error .undefinedOpcode ∧
  decode 0xFFFFFFFF#32 = .error .undefinedOpcode

/-- R101 to R103: every well-formed command is read back from its word, with every count the encoding admits. -/
def Obligations.DecodeInvertsEncode : Prop :=
  ∀ i : Instr, i.wellFormed = true → decode (encode i) = .ok i

/-- R100 to R104: a word that decodes is the word of the command it decodes to, and that command is well formed. -/
def Obligations.EncodeInvertsDecode : Prop :=
  ∀ (w : HostWord) (i : Instr), decode w = .ok i → i.wellFormed = true ∧ encode i = w

/-- From R104: which words are `INIT`, `SUM`, `RESET` and `WRITE n`, and that every other word is illegal. R106 counts them and
marks it "[derived: from rule R104]". -/
def Obligations.DecoderAccountsForEveryWord : Prop :=
  ∀ w : HostWord,
    (decode w = .ok .init ↔ w = 0x00000001#32) ∧
    (decode w = .ok .sum ↔ w = 0x00000003#32) ∧
    (decode w = .ok .reset ↔ w = 0x00000004#32) ∧
    (∀ n : Nat, decode w = .ok (.write n) ↔ n ≤ 255 ∧ w = 0x00000002#32 + 0x100#32 * BitVec.ofNat 32 n) ∧
    ((∃ x, decode w = .error x) ↔
      w ≠ 0x00000001#32 ∧ w ≠ 0x00000003#32 ∧ w ≠ 0x00000004#32 ∧
        ∀ n : Nat, n ≤ 255 → w ≠ 0x00000002#32 + 0x100#32 * BitVec.ofNat 32 n)

/-- R105: an illegal word sets `ERR` = 0x04 and changes nothing else, in every state. -/
def Obligations.IllegalWordChangesOnlyErr : Prop :=
  resultByte .illegalCommand = 0x04#8 ∧
  ∀ (w : HostWord) (s : State),
    ((w.extractLsb' 0 8 ≠ 0x01#8 ∧ w.extractLsb' 0 8 ≠ 0x02#8 ∧ w.extractLsb' 0 8 ≠ 0x03#8 ∧ w.extractLsb' 0 8 ≠ 0x04#8) ∨
      w.extractLsb' 16 16 ≠ 0#16 ∨
      (w.extractLsb' 0 8 ≠ 0x02#8 ∧ w.extractLsb' 8 8 ≠ 0#8)) →
    runCommand w s = .next { s with err := .illegalCommand }

/-! ## Errors -/

/-- R302: a command word that ends with an error code changes `ERR` and nothing else. -/
def Obligations.FailedCommandChangesOnlyErr : Prop :=
  ∀ (w : HostWord) (s t : State), runCommand w s = .next t → t.err ≠ .ok → t = { s with err := t.err }

/-- R304: the first cause that applies, in the rule's order, is the code a command word ends with; with no cause it ends with
`OK`. -/
def Obligations.FirstCauseIsReported : Prop :=
  ∀ (w : HostWord) (s : State),
    let op := w.extractLsb' 0 8
    let len := w.extractLsb' 8 8
    ∃ t, runCommand w s = .next t ∧
      t.err =
        if (op ≠ 0x01#8 ∧ op ≠ 0x02#8 ∧ op ≠ 0x03#8 ∧ op ≠ 0x04#8) ∨ w.extractLsb' 16 16 ≠ 0#16 ∨
            (op ≠ 0x02#8 ∧ len ≠ 0#8) then .illegalCommand
        else if op = 0x02#8 ∧ 128 < len.toNat then .badLength
        else if op ≠ 0x01#8 ∧ s.hash.conf = false then .notConfigured
        else if op = 0x01#8 ∧ 64 < (s.regs.cfg.extractLsb' 8 8).toNat then .keyTooLarge
        else if op = 0x01#8 ∧ 16 < (s.regs.cfg.extractLsb' 16 8).toNat then .saltTooLarge
        else .ok

/-- R303: the only steps that change `ERR` are a `CMD` write and hardware reset. The events of the port are the model's form of
the bus (notes/assumptions/1.md). -/
def Obligations.OnlyCommandsWriteErr : Prop :=
  ∀ s t : State, step s = .next t → t.err ≠ s.err →
    ∃ e rest, s.port.pending = e :: rest ∧
      ((∃ off w, e = .access (.write off w) ∧ regAt off = .cmd) ∨ (∃ level, e = .rst level) ∨ (∃ x, e = .cutOff x))

/-- R22, R301: before a successful `INIT`, `WRITE` with a legal count, `SUM` and `RESET` report `NOT_CONFIGURED` and change
nothing else. -/
def Obligations.UnconfiguredCommandsFail : Prop :=
  resultByte .notConfigured = 0x03#8 ∧
  ∀ s : State, s.hash.conf = false →
    (∀ n : Nat, n ≤ 128 → exec (.write n) s = .next { s with err := .notConfigured }) ∧
    exec .sum s = .next { s with err := .notConfigured } ∧
    exec .reset s = .next { s with err := .notConfigured }

/-! ## The port -/

/-- R71, R105, R283: every word at `CMD`, legal or not, is run by `runCommand` on the state without the served event, and is
acknowledged once that has completed; a word that decodes to a well-formed command runs exactly that command; presented by
`withFetchWord`, it runs on the state itself with `rst` deasserted. The port and `withFetchWord` are the model's own (DESIGN
CHOICE, notes/assumptions/1.md). -/
def Obligations.StepRunsDecodedCommand : Prop :=
  (∀ (s : State) (off : Offset) (w : HostWord) (rest : List HostEvent),
    s.port.rst = false → s.port.pending = .access (.write off w) :: rest → regAt off = .cmd →
    ∃ t, runCommand w (s.setPending rest) = .next t ∧ step s = .next (t.respond .writeAck)) ∧
  (∀ (s : State) (off : Offset) (w : HostWord) (rest : List HostEvent) (i : Instr),
    s.port.rst = false → s.port.pending = .access (.write off w) :: rest → regAt off = .cmd →
    decode w = .ok i → i.wellFormed = true →
    ∃ t, exec i (s.setPending rest) = .next t ∧ step s = .next (t.respond .writeAck)) ∧
  (∀ (s : State) (nbits w : Nat) (i : Instr), decodeTableWord nbits w = some i →
    ∃ t, exec i (s.setRst false) = .next t ∧ step (s.withFetchWord nbits w) = .next (t.respond .writeAck))

/-- R71, R281, R340: a step serves the oldest event and no other; a read is answered with the word of its register as the state
before it holds it, a write with its acknowledgement; hardware reset answers nothing by itself, and a transaction it cuts off is
answered at most once. The port is the model's own (notes/assumptions/1.md), the cut-off answer a free value
(notes/assumptions/4.md). -/
def Obligations.StepServesOldestEvent : Prop :=
  ∀ (s t : State) (e : HostEvent) (rest : List HostEvent),
    s.port.pending = e :: rest → step s = .next t →
    t.port.pending = rest ∧
    match e with
    | .access (.read off) => t.port.responses = s.port.responses ++ [.readData (readReg (regAt off) s)]
    | .access (.write _ _) => t.port.responses = s.port.responses ++ [.writeAck]
    | .rst _ => t.port.responses = s.port.responses
    | .cutOff _ => t.port.responses = s.port.responses ∨ ∃ r, t.port.responses = s.port.responses ++ [r]

/-- R300, R286, R352: with `rst` deasserted every step answers a next state, whatever stands at the model's port
(notes/assumptions/1.md). -/
def Obligations.PortAlwaysAnswersOutsideReset : Prop :=
  ∀ s : State, s.port.rst = false → ∃ t, step s = .next t

/-- R353: with nothing at the model's port (notes/assumptions/1.md) the block is quiescent. -/
def Obligations.QuiescentBlockKeepsItsState : Prop :=
  ∀ s : State, s.port.pending = [] → step s = .next s

/-- R353, U11: a transaction presented while `rst` is asserted is refused; the name, and that one step refuses it, is the
model's choice (notes/assumptions/5.md). -/
def Obligations.AccessDuringResetIsRefused : Prop :=
  ∀ (s : State) (x : Transaction) (rest : List HostEvent), s.port.rst = true →
    (s.port.pending = .access x :: rest ∨ s.port.pending = .cutOff x :: rest) →
    step s = .refused .accessDuringReset

/-! ## Hardware reset -/

/-- R48: what every piece of state holds after hardware reset, and what the readable registers read. -/
def Obligations.ResetHoldsSpecValues : Prop :=
  let s := State.reset
  s.hash.conf = false ∧ (∀ i : Fin 8, s.hash.h[i] = 0) ∧ (∀ i : Fin 8, s.hash.hinit[i] = 0) ∧ s.hash.t = 0 ∧
  (∀ i : Fin 128, s.hash.buf[i] = 0) ∧ s.hash.off = 0 ∧ s.hash.keyed = false ∧ (∀ i : Fin 128, s.hash.kb[i] = 0) ∧
  s.hash.dsize = 0 ∧ s.err = .ok ∧ s.regs.cfg = 0x000040#24 ∧
  (∀ i : Fin 64, s.regs.key[i] = 0) ∧ (∀ i : Fin 16, s.regs.salt[i] = 0) ∧
  (∀ i : Fin 128, s.regs.din[i] = 0) ∧ (∀ i : Fin 64, s.regs.dout[i] = 0) ∧
  readReg .status s = 0x00000000#32 ∧ readReg .cfg s = 0x00000040#32 ∧ readReg .size s = 0x00000000#32 ∧
  readReg .blksz s = 0x00000080#32 ∧ (∀ k : Fin 4, readReg (.cnt k) s = 0x00000000#32) ∧
  (∀ k : Fin 4, readReg (.salt k) s = 0x00000000#32) ∧ (∀ k : Fin 32, readReg (.din k) s = 0x00000000#32) ∧
  (∀ k : Fin 16, readReg (.dout k) s = 0x00000000#32)

/-- R330, R331: asserting `rst`, deasserting it, and cutting off a transaction with it all leave every register at its reset
value and what is pending as it is. That `rst` comes as events, and that the port survives it, is the model's choice
(notes/assumptions/5.md). -/
def Obligations.HardwareResetRestoresResetValues : Prop :=
  (∀ (s : State) (level : Bool) (rest : List HostEvent),
    s.port.pending = .rst level :: rest → (level = true ∨ s.port.rst = true) →
    ∃ t, step s = .next t ∧ t.hash = State.reset.hash ∧ t.err = .ok ∧ t.regs = State.reset.regs ∧
      t.port = { s.port with rst := level, pending := rest }) ∧
  (∀ (s : State) (x : Transaction) (rest : List HostEvent),
    s.port.pending = .cutOff x :: rest → s.port.rst = false →
    ∃ t, step s = .next t ∧ t.hash = State.reset.hash ∧ t.err = .ok ∧ t.regs = State.reset.regs ∧
      t.port.rst = true ∧ t.port.pending = rest)

/-! ## The register window -/

/-- R62: the register at each offset of the map. -/
def Obligations.RegisterMapOfWindow : Prop :=
  regAt 0x000#9 = .cmd ∧ regAt 0x004#9 = .status ∧ regAt 0x008#9 = .cfg ∧ regAt 0x00C#9 = .size ∧ regAt 0x010#9 = .blksz ∧
  (∀ k : Fin 4, regAt (BitVec.ofNat 9 (0x020 + 4 * k.val)) = .cnt k) ∧
  (∀ k : Fin 16, regAt (BitVec.ofNat 9 (0x040 + 4 * k.val)) = .key k) ∧
  (∀ k : Fin 4, regAt (BitVec.ofNat 9 (0x080 + 4 * k.val)) = .salt k) ∧
  (∀ k : Fin 32, regAt (BitVec.ofNat 9 (0x100 + 4 * k.val)) = .din k) ∧
  (∀ k : Fin 16, regAt (BitVec.ofNat 9 (0x180 + 4 * k.val)) = .dout k) ∧
  (∀ off : Offset,
    (0x014 ≤ off.toNat ∧ off.toNat < 0x020) ∨ (0x030 ≤ off.toNat ∧ off.toNat < 0x040) ∨
      (0x090 ≤ off.toNat ∧ off.toNat < 0x100) ∨ 0x1C0 ≤ off.toNat →
    regAt off = .reserved)

/-- R61, R66: offsets with the same bits [8:2] reach the same register. -/
def Obligations.OffsetLowBitsAreIgnored : Prop :=
  ∀ a b : Offset, a.extractLsb' 2 7 = b.extractLsb' 2 7 → regAt a = regAt b

/-- The fields of `STATUS`, its reserved bits included, in every state: bit 1 is `KEYED` without a condition, as the read rule
R281 has it. R33's table says of bit 1 "reads 0 while `CONF = 0`" and derives it; that the model follows R281 in states no run
reaches is log entry 13 (DEDUCED, notes/assumptions/13.md), and the last clause gives R33's words in every state that has the
invariants. -/
def Obligations.StatusWordFields : Prop :=
  ∀ s : State,
    let w := readReg .status s
    w.extractLsb' 0 1 = (if s.hash.conf then 1#1 else 0#1) ∧
    w.extractLsb' 1 1 = (if s.hash.keyed then 1#1 else 0#1) ∧
    w.extractLsb' 2 6 = 0#6 ∧
    (w.extractLsb' 8 8).toNat = s.hash.off.val ∧
    w.extractLsb' 16 8 = resultByte s.err ∧
    w.extractLsb' 24 8 = 0#8 ∧
    (HashInv s.hash s.regs.dout → s.hash.conf = false → w.extractLsb' 1 1 = 0#1)

/-- R281, R35, R36, R37, R284, R285: what a read of any offset returns, in every state, with `o` the offset without its bits
[1:0]: the table of R281 with its words written out. `CNTk` is `T[32k+31:32k]`, `SIZE` is `DSIZE` or 0, `BLKSZ` is 0x80, a byte
window's word has its first byte in bits [7:0], and write-only and reserved offsets read 0. The `STATUS` word in a state with
`CONF` = 0 and `KEYED` = 1 is log entry 13's (notes/assumptions/13.md). -/
def Obligations.ReadReturnsTableWord : Prop :=
  ∀ (s : State) (off : Offset),
    let o := (off &&& 0x1FC#9).toNat
    readReg (regAt off) s =
      if o = 0x004 then
        0#8 ++ resultByte s.err ++ BitVec.ofNat 8 s.hash.off.val ++ 0#6 ++ BitVec.ofBool s.hash.keyed ++
          BitVec.ofBool s.hash.conf
      else if o = 0x008 then 0#8 ++ s.regs.cfg
      else if o = 0x00C then if s.hash.conf then BitVec.ofNat 32 s.hash.dsize.toNat else 0x00000000#32
      else if o = 0x010 then 0x00000080#32
      else if 0x020 ≤ o ∧ o ≤ 0x02C then BitVec.ofNat 32 (s.hash.t.toNat / 2 ^ (32 * ((o - 0x020) / 4)))
      else if 0x080 ≤ o ∧ o ≤ 0x08C then
        byteAt s.regs.salt (o - 0x080 + 3) ++ byteAt s.regs.salt (o - 0x080 + 2) ++ byteAt s.regs.salt (o - 0x080 + 1) ++
          byteAt s.regs.salt (o - 0x080)
      else if 0x100 ≤ o ∧ o ≤ 0x17C then
        byteAt s.regs.din (o - 0x100 + 3) ++ byteAt s.regs.din (o - 0x100 + 2) ++ byteAt s.regs.din (o - 0x100 + 1) ++
          byteAt s.regs.din (o - 0x100)
      else if 0x180 ≤ o ∧ o ≤ 0x1BC then
        byteAt s.regs.dout (o - 0x180 + 3) ++ byteAt s.regs.dout (o - 0x180 + 2) ++ byteAt s.regs.dout (o - 0x180 + 1) ++
          byteAt s.regs.dout (o - 0x180)
      else 0x00000000#32

/-- R64, R281, R282: byte `4k + j` of a window is bits [8j+7:8j] of its word `k`, when the word is read and when it is written;
a write leaves the other bytes of its window, and everything outside it, as they are, and a `CFG` write stores bits [23:0] only.
-/
def Obligations.WindowBytesAreLittleEndian : Prop :=
  ∀ (s : State) (w : HostWord) (j : Fin 4),
    (∀ k : Fin 4, (readReg (.salt k) s).extractLsb' (8 * j.val) 8 = s.regs.salt[4 * k.val + j.val] ∧
      (writeReg (.salt k) w s).regs.salt[4 * k.val + j.val] = w.extractLsb' (8 * j.val) 8) ∧
    (∀ k : Fin 32, (readReg (.din k) s).extractLsb' (8 * j.val) 8 = s.regs.din[4 * k.val + j.val] ∧
      (writeReg (.din k) w s).regs.din[4 * k.val + j.val] = w.extractLsb' (8 * j.val) 8) ∧
    (∀ k : Fin 16, (readReg (.dout k) s).extractLsb' (8 * j.val) 8 = s.regs.dout[4 * k.val + j.val] ∧
      (writeReg (.key k) w s).regs.key[4 * k.val + j.val] = w.extractLsb' (8 * j.val) 8) ∧
    (∀ (k : Fin 4) (i : Fin 16), i.val / 4 ≠ k.val → (writeReg (.salt k) w s).regs.salt[i] = s.regs.salt[i]) ∧
    (∀ (k : Fin 32) (i : Fin 128), i.val / 4 ≠ k.val → (writeReg (.din k) w s).regs.din[i] = s.regs.din[i]) ∧
    (∀ (k : Fin 16) (i : Fin 64), i.val / 4 ≠ k.val → (writeReg (.key k) w s).regs.key[i] = s.regs.key[i]) ∧
    (∀ k : Fin 4, writeReg (.salt k) w s = s.setRegs { s.regs with salt := (writeReg (.salt k) w s).regs.salt }) ∧
    (∀ k : Fin 32, writeReg (.din k) w s = s.setRegs { s.regs with din := (writeReg (.din k) w s).regs.din }) ∧
    (∀ k : Fin 16, writeReg (.key k) w s = s.setRegs { s.regs with key := (writeReg (.key k) w s).regs.key }) ∧
    writeReg .cfg w s = s.setRegs { s.regs with cfg := w.extractLsb' 0 24 }

/-- R281, R282: what every register reads after a write to any register but `CMD`: a staging register reads back what was stored
(`CFG` without bits [31:24], `KEY` as 0), every other register is untouched. -/
def Obligations.RegisterWriteReadback : Prop :=
  ∀ (s : State) (w : HostWord) (r q : WindowReg), r ≠ .cmd →
    readReg q (writeReg r w s) =
      if q = r then
        match r with
        | .cfg => w &&& 0x00FFFFFF#32
        | .salt _ => w
        | .din _ => w
        | .key _ => 0x00000000#32
        | _ => readReg r s
      else readReg q s

/-- R67(b), R67(d), R282, R305: a register access other than a `CMD` write completes, and changes no hash-state field, not `ERR`
and not `DOUT`; a write stores its word as `writeReg` does (WindowBytesAreLittleEndian), so one to a read-only or reserved
register changes no staging register either. -/
def Obligations.RegisterAccessLeavesTheHash : Prop :=
  ∀ (s : State) (off : Offset) (w : HostWord) (rest : List HostEvent), s.port.rst = false →
    (s.port.pending = .access (.read off) :: rest →
      ∃ t, step s = .next t ∧ t.hash = s.hash ∧ t.err = s.err ∧ t.regs = s.regs) ∧
    (s.port.pending = .access (.write off w) :: rest → regAt off ≠ .cmd →
      ∃ t, step s = .next t ∧ t.hash = s.hash ∧ t.err = s.err ∧ t.regs.dout = s.regs.dout ∧
        t.regs = (writeReg (regAt off) w s).regs ∧
        ((regAt off = .reserved ∨ regAt off = .status ∨ regAt off = .size ∨ regAt off = .blksz ∨
            (∃ k, regAt off = .cnt k) ∨ (∃ k, regAt off = .dout k)) → t.regs = s.regs))

/-- From R38, R281 and R282 (R308: "the key cannot be read back through the port"): no answer of the block depends on the key
staging window until an `INIT` reads it. Two blocks that differ in `KEY` only, given the same accesses and no `INIT`, give the
same answers and end in states that differ in `KEY` only. -/
def Obligations.KeyStagingIsUnobservable : Prop :=
  ∀ (s t : State) (key : Vector Byte 64) (program : List HostEvent),
    (∀ e ∈ program, keepsConfiguration e = true) → runProgram program s = .next t →
    ∃ key', runProgram program (s.setRegs { s.regs with key := key }) = .next (t.setRegs { t.regs with key := key' })

/-! ## INIT -/

/-- From R130, R133 to R136, R140 and R202: `INIT` on a legal configuration completes with this state, whatever the hash state
held before. The key block `kb` is said in the words of R135, and it is what the model's `keyBlock` gives. For a keyed `INIT`,
that `BUF` = `KB`, `OFF` = 128, `T` = 0 and `HINIT` = `H` are the parameter-derived values is the spec's own inference: R137
marks it "[derived: from rule R202 and `43_finalize.md` rule R238]", R138 "[derived: from rule R134 and rule R137]". -/
def Obligations.InitSetsUpConfiguredHash : Prop :=
  ∀ s : State,
    let dreq := s.regs.cfg.extractLsb' 0 8
    let kl := s.regs.cfg.extractLsb' 8 8
    let sl := s.regs.cfg.extractLsb' 16 8
    let ds : BitVec 7 := if 1 ≤ dreq.toNat ∧ dreq.toNat ≤ 64 then dreq.setWidth 7 else 64#7
    let h := initialChain (paramBlock ds kl sl.toNat s.regs.salt)
    kl.toNat ≤ 64 → sl.toNat ≤ 16 →
    ∃ kb : Vector Byte 128,
      (∀ i : Fin 64, i.val < kl.toNat → kb[i.val]'(by omega) = s.regs.key[i]) ∧
      (∀ i : Fin 128, kl.toNat ≤ i.val → kb[i] = 0) ∧
      kb = keyBlock kl.toNat s.regs.key ∧
      exec .init s = .next { s with
        hash := { conf := true, h := h, hinit := h, t := 0, buf := if kl = 0 then zeros 128 else kb,
                  off := if kl = 0 then 0 else 128, keyed := decide (0 < kl.toNat), kb := kb, dsize := ds }
        err := .ok
        regs := { s.regs with dout := zeros 64 } }

/-- R131, R132, R139: an over-long key, and an over-long salt beside a legal key, make `INIT` fail with 0x01 and 0x02 and change
only `ERR`, so a hash state that existed before stays. -/
def Obligations.InitRejectsLongKeyOrSalt : Prop :=
  resultByte .keyTooLarge = 0x01#8 ∧ resultByte .saltTooLarge = 0x02#8 ∧
  ∀ s : State,
    (64 < (s.regs.cfg.extractLsb' 8 8).toNat → exec .init s = .next { s with err := .keyTooLarge }) ∧
    ((s.regs.cfg.extractLsb' 8 8).toNat ≤ 64 → 16 < (s.regs.cfg.extractLsb' 16 8).toNat →
      exec .init s = .next { s with err := .saltTooLarge })

/-- R130, R35: the digest size of a successful `INIT`, as `SIZE` reads it: the request if it is 1 to 64, else 64. -/
def Obligations.DigestSizeIsClamped : Prop :=
  ∀ s : State, (s.regs.cfg.extractLsb' 8 8).toNat ≤ 64 → (s.regs.cfg.extractLsb' 16 8).toNat ≤ 16 →
    ∃ t, exec .init s = .next t ∧
      (readReg .size t).toNat =
        if 1 ≤ (s.regs.cfg.extractLsb' 0 8).toNat ∧ (s.regs.cfg.extractLsb' 0 8).toNat ≤ 64
        then (s.regs.cfg.extractLsb' 0 8).toNat else 64

/-- From R133 and R134 (R134 marks it "[derived: from this rule and rule R133]"): the chain values of a configuration. Only
words 0, 4 and 5 differ from `IV`: word 0 by the digest size, the key length and the constants 1, 1; words 4 and 5 by the salt
bytes below the salt length. -/
def Obligations.ChainOfConfiguration : Prop :=
  ∀ (ds : BitVec 7) (kl : Byte) (sl : Nat) (salt : Vector Byte 16), sl ≤ 16 →
    let h := initialChain (paramBlock ds kl sl salt)
    let used : Vector Byte 16 := tabulate fun i : Fin 16 => if i.val < sl then salt[i] else 0
    h[0] = iv[0] ^^^ (0x0000000001010000#64 ||| (kl.setWidth 64 <<< 8) ||| ds.setWidth 64) ∧
    h[1] = iv[1] ∧ h[2] = iv[2] ∧ h[3] = iv[3] ∧
    h[4] = iv[4] ^^^ le64 used 0 ∧ h[5] = iv[5] ^^^ le64 used 8 ∧
    h[6] = iv[6] ∧ h[7] = iv[7]

/-- R38, R39, R135, U7: `KEY` bytes at or beyond `KEYLEN` and `SALT` bytes at or beyond `SALTLEN` do not affect `INIT`. -/
def Obligations.InitIgnoresUnusedKeyAndSalt : Prop :=
  ∀ (s t : State) (key : Vector Byte 64) (salt : Vector Byte 16),
    (∀ i : Fin 64, i.val < (s.regs.cfg.extractLsb' 8 8).toNat → key[i] = s.regs.key[i]) →
    (∀ i : Fin 16, i.val < (s.regs.cfg.extractLsb' 16 8).toNat → salt[i] = s.regs.salt[i]) →
    exec .init s = .next t →
    exec .init (s.setRegs { s.regs with key := key, salt := salt }) =
      .next (t.setRegs { t.regs with key := key, salt := salt })

/-! ## WRITE -/

/-- R204 with R200, R202: `WRITE n` on a configured state completes, and block by block it does this. If the bytes fit the
buffer they are stored behind those already there and nothing is compressed, an exactly full buffer included; otherwise the
buffer, filled up, is compressed once as a non-final block with the advanced counter, and the bytes left over start the buffer
anew, over the bytes of the block just compressed. -/
def Obligations.WriteAbsorbsBlockwise : Prop :=
  ∀ (s : State) (n : Nat), s.hash.conf = true → n ≤ 128 →
    let o := s.hash.off.val
    if o + n ≤ 128 then
      exec (.write n) s = .next { s with
        hash := { s.hash with
          buf := tabulate fun k : Fin 128 =>
            if o ≤ k.val ∧ k.val < o + n then byteAt s.regs.din (k.val - o) else s.hash.buf[k]
          off := Fin.ofNat 129 (o + n) }
        err := .ok }
    else
      let full : Vector Byte 128 :=
        tabulate fun k : Fin 128 => if k.val < o then s.hash.buf[k] else byteAt s.regs.din (k.val - o)
      exec (.write n) s = .next { s with
        hash := { s.hash with
          h := compressF s.hash.h (s.hash.t + 128) full false
          t := s.hash.t + 128
          buf := tabulate fun k : Fin 128 =>
            if k.val < o + n - 128 then byteAt s.regs.din (128 - o + k.val) else full[k]
          off := Fin.ofNat 129 (o + n - 128) }
        err := .ok }

/-- R104, R204: a count above 128 is `BAD_LENGTH` (0x05), configured or not, and changes nothing but `ERR`; `WRITE 0` on a
configured state changes nothing but `ERR`. Counts above 255 have no word; the model gives them the same outcome
(notes/assumptions/2.md). -/
def Obligations.WriteCountLimits : Prop :=
  resultByte .badLength = 0x05#8 ∧
  ∀ s : State,
    (∀ n : Nat, 128 < n → exec (.write n) s = .next { s with err := .badLength }) ∧
    (s.hash.conf = true → exec (.write 0) s = .next { s with err := .ok })

/-- The frame of `WRITE n` (R204): `CONF`, `HINIT`, `KEYED`, `KB` and `DSIZE`, all staging and output registers and the port are
unchanged, and every register of the window but `STATUS` and `CNT0` to `CNT3` reads as before. -/
def Obligations.WriteFrame : Prop :=
  ∀ (n : Nat) (s t : State), exec (.write n) s = .next t →
    t.hash.conf = s.hash.conf ∧ t.hash.hinit = s.hash.hinit ∧ t.hash.keyed = s.hash.keyed ∧ t.hash.kb = s.hash.kb ∧
    t.hash.dsize = s.hash.dsize ∧ t.regs = s.regs ∧ t.port = s.port ∧
    ∀ r : WindowReg, r ≠ .status → (∀ k, r ≠ .cnt k) → readReg r t = readReg r s

/-- From R202 (R203(a), R203(c) and R46 mark it "[derived: from rule R202]"): from an empty hash, absorbing `p` ends with `T` =
128 · (⌈|p|/128⌉ − 1), 0 for no byte, and with the rest of the bytes in the buffer, at least one byte if there was one. -/
def Obligations.CounterCountsDeferredBlocks : Prop :=
  ∀ (x : HashState) (p : List Byte), x.t = 0 → x.off = 0 →
    (x.absorb p).t = BitVec.ofNat 128 (128 * ((p.length - 1) / 128)) ∧
    (x.absorb p).off.val = p.length - 128 * ((p.length - 1) / 128) ∧
    (p ≠ [] → 1 ≤ (x.absorb p).off.val)

/-- From R201 and R202: absorbing `p` adds |p| to `T + OFF`, from every state. R46 has the sentence "The total number of bytes
absorbed since the last `INIT` or `RESET`, key block included, is `T + OFF`" and marks it "[derived: from rule R202]". -/
def Obligations.CounterAndOffsetCountBytes : Prop :=
  ∀ (x : HashState) (p : List Byte),
    (x.absorb p).t + BitVec.ofNat 128 (x.absorb p).off.val =
      x.t + BitVec.ofNat 128 x.off.val + BitVec.ofNat 128 p.length

/-- From R202 and R204 (R205 marks it "[derived: from rule R202]"): two splits of one message into chunks of at most 128 bytes
leave the same `H`, `T`, `OFF` and `BUF[0..OFF)`, and the same digest of a later `SUM`. -/
def Obligations.WriteSplitInvariance : Prop :=
  ∀ (s : State) (cs ds : List (List Byte)), s.hash.conf = true →
    (∀ c ∈ cs, c.length ≤ 128) → (∀ d ∈ ds, d.length ≤ 128) → cs.flatten = ds.flatten →
    ∃ a b u v, writeChunks cs s = .next a ∧ writeChunks ds s = .next b ∧
      a.hash.h = b.hash.h ∧ a.hash.t = b.hash.t ∧ a.hash.off = b.hash.off ∧
      (∀ k : Fin 128, k.val < a.hash.off.val → a.hash.buf[k] = b.hash.buf[k]) ∧
      exec .sum a = .next u ∧ exec .sum b = .next v ∧ u.regs.dout = v.regs.dout

/-- From R201, R204 and R230: a `WRITE` and a `SUM` never decrease `T`, below the wrap of R201. R206 has the sentence "`T` never
decreases" and marks it "[derived: from rules R200, R201, R232, R260]". -/
def Obligations.CounterNeverDecreases : Prop :=
  ∀ (i : Instr) (s t : State), (i = .sum ∨ ∃ n, i = .write n) → s.hash.t.toNat + 128 < 2 ^ 128 →
    exec i s = .next t → s.hash.t.toNat ≤ t.hash.t.toNat

/-- From R202 and R233 (R45 marks it "[derived: from rule R202 and rule R233]"): the bytes of `BUF` at or beyond `OFF` are
don't-care (notes/assumptions/9.md). Two states that differ there only still differ there only after any command, with the same
registers and answers. -/
def Obligations.StaleBufferBytesAreInvisible : Prop :=
  ∀ (i : Instr) (s t : State) (buf : Vector Byte 128),
    (∀ k : Fin 128, k.val < s.hash.off.val → buf[k] = s.hash.buf[k]) → exec i s = .next t →
    ∃ buf', exec i (s.setHash { s.hash with buf := buf }) = .next (t.setHash { t.hash with buf := buf' }) ∧
      ∀ k : Fin 128, k.val < t.hash.off.val → buf'[k] = t.hash.buf[k]

/-! ## Counter arithmetic -/

/-- R201: the two-word advance is addition of 128 modulo 2^128. -/
def Obligations.AdvanceCounterIsAdd128 : Prop :=
  ∀ t : BitVec 128, advanceCounter t = t + 128#128

/-- R232: the two-word correction with borrow is subtraction modulo 2^128. -/
def Obligations.CorrectCounterIsSub128 : Prop :=
  ∀ (t : BitVec 128) (diff : Word), correctCounter t diff = t - diff.setWidth 128

/-- From R231, R232 and R234 (R235 marks it "[derived: from rules R231, R232 and R234]"): the counter the final compression
receives is `T + OFF` modulo 2^128. -/
def Obligations.FinalCounterIsTotalLength : Prop :=
  ∀ (t : BitVec 128) (off : Fin 129), finalCounter t off = t + BitVec.ofNat 128 off.val

/-! ## SUM -/

/-- R238 with R230, R233 to R237: `SUM` on a configured state completes and writes `DOUT` and `ERR` only. `DOUT` is the
serialized output of the compression of `BUF[0..OFF)`, zero-padded, with the counter `T + OFF` and the finalization flag, up to
`DSIZE`, and zero above. -/
def Obligations.SumOutputsFinalDigest : Prop :=
  ∀ s : State, s.hash.conf = true →
    let block : Vector Byte 128 := tabulate fun k : Fin 128 => if k.val < s.hash.off.val then s.hash.buf[k] else 0
    let h := compressF s.hash.h (s.hash.t + BitVec.ofNat 128 s.hash.off.val) block true
    exec .sum s = .next { s with
      err := .ok
      regs := { s.regs with
        dout := tabulate fun i : Fin 64 =>
          if i.val < s.hash.dsize.toNat then (h[i.val / 8]'(by omega)).extractLsb' (8 * (i.val % 8)) 8 else 0 } }

/-- The frame of `SUM` (R230): the hash state, `CFG`, `KEY`, `SALT`, `DIN` and the port are unchanged, and every register of the
window but `STATUS` and `DOUT` reads as before. -/
def Obligations.SumFrame : Prop :=
  ∀ s t : State, exec .sum s = .next t →
    t.hash = s.hash ∧ t.regs.cfg = s.regs.cfg ∧ t.regs.key = s.regs.key ∧ t.regs.salt = s.regs.salt ∧
    t.regs.din = s.regs.din ∧ t.port = s.port ∧
    ∀ r : WindowReg, r ≠ .status → (∀ k, r ≠ .dout k) → readReg r t = readReg r s

/-- From R64 and R236 (R64's last sentence marks it "[derived: from this rule and rule R236]"): with a 64-byte digest, `DOUT`
word 2k is the low half and word 2k + 1 the high half of chain value `k` of the final compression. -/
def Obligations.DoutWordsAreChainHalves : Prop :=
  ∀ s : State, s.hash.conf = true → s.hash.dsize = 64#7 →
    ∃ t, exec .sum s = .next t ∧
      ∀ k : Fin 8,
        readReg (.dout ⟨2 * k.val, by omega⟩) t = ((finalChain s.hash)[k]).extractLsb' 0 32 ∧
        readReg (.dout ⟨2 * k.val + 1, by omega⟩) t = ((finalChain s.hash)[k]).extractLsb' 32 32

/-- From R230 and R202 (R239 marks it "[derived: from rule R230 and `42_absorb.md` rule R205]"): `SUM` can be repeated and
peeked. A second `SUM` changes nothing more, and a message absorbed in two parts has the same digest with a `SUM` between the
parts as without it. -/
def Obligations.SumDoesNotDisturbTheHash : Prop :=
  (∀ s t : State, exec .sum s = .next t → exec .sum t = .next t) ∧
  (∀ (s : State) (cs ds : List (List Byte)), s.hash.conf = true →
    (∀ c ∈ cs, c.length ≤ 128) → (∀ d ∈ ds, d.length ≤ 128) →
    ∃ a p q b u v, writeChunks cs s = .next a ∧ exec .sum a = .next p ∧ writeChunks ds p = .next q ∧
      exec .sum q = .next u ∧ writeChunks (cs ++ ds) s = .next b ∧ exec .sum b = .next v ∧
      u.regs.dout = v.regs.dout)

/-! ## RESET -/

/-- R260: `RESET` on a configured state completes: the snapshot is restored, the counter is zero, the key block is the buffer if
there is a key, `DOUT` is cleared, and nothing else changes. -/
def Obligations.ResetReturnsToSnapshot : Prop :=
  ∀ s : State, s.hash.conf = true →
    exec .reset s = .next { s with
      hash := { s.hash with
        h := s.hash.hinit, t := 0, buf := if s.hash.keyed then s.hash.kb else zeros 128,
        off := if s.hash.keyed then 128 else 0 }
      err := .ok
      regs := { s.regs with dout := zeros 64 } }

/-- The frame of `INIT` and `RESET` (R139, R260): `CFG`, `KEY`, `SALT`, `DIN` and the port are unchanged, every register of the
window but `STATUS`, `SIZE`, `CNT0` to `CNT3` and `DOUT` reads as before; `RESET` also keeps `CONF`, `HINIT`, `KEYED`, `KB` and
`DSIZE`. -/
def Obligations.InitAndResetFrame : Prop :=
  (∀ (i : Instr) (s t : State), (i = .init ∨ i = .reset) → exec i s = .next t →
    t.regs.cfg = s.regs.cfg ∧ t.regs.key = s.regs.key ∧ t.regs.salt = s.regs.salt ∧ t.regs.din = s.regs.din ∧
    t.port = s.port ∧
    ∀ r : WindowReg, r ≠ .status → r ≠ .size → (∀ k, r ≠ .cnt k) → (∀ k, r ≠ .dout k) → readReg r t = readReg r s) ∧
  (∀ s t : State, exec .reset s = .next t →
    t.hash.conf = s.hash.conf ∧ t.hash.hinit = s.hash.hinit ∧ t.hash.keyed = s.hash.keyed ∧ t.hash.kb = s.hash.kb ∧
    t.hash.dsize = s.hash.dsize ∧ readReg .size t = readReg .size s)

/-- From R140 and R260 (R261 marks it "[derived: from rules R137, R138, R140 and this file's rule R260]"): after a successful
`INIT` and any register accesses and commands other than `INIT`, `RESET` leaves every hash-state field and `DOUT` exactly as
that `INIT` left them. -/
def Obligations.ResetFidelity : Prop :=
  ∀ (s a : State) (program : List HostEvent), exec .init s = .next a → a.err = .ok → a.port.rst = false →
    (∀ e ∈ program, keepsConfiguration e = true) →
    ∃ b c, runProgram program a = .next b ∧ exec .reset b = .next c ∧ SameHash c a

/-! ## Rules of the whole machine -/

/-- R22: `CONF` is set only by a `CMD` write of `INIT`, and cleared only by hardware reset. -/
def Obligations.ConfIsSetByInitAndClearedByReset : Prop :=
  ∀ s t : State, step s = .next t →
    (s.hash.conf = false → t.hash.conf = true →
      ∃ off w rest, s.port.pending = .access (.write off w) :: rest ∧ regAt off = .cmd ∧ decode w = .ok .init) ∧
    (s.hash.conf = true → t.hash.conf = false →
      (∃ level rest, s.port.pending = .rst level :: rest) ∨ (∃ x rest, s.port.pending = .cutOff x :: rest))

/-- R24, R28, R29, R30: only `INIT` and hardware reset change `HINIT`, `KEYED`, `KB` and `DSIZE`. -/
def Obligations.ConfigurationIsWrittenByInitOnly : Prop :=
  ∀ s t : State, step s = .next t →
    (t.hash.hinit ≠ s.hash.hinit ∨ t.hash.keyed ≠ s.hash.keyed ∨ t.hash.kb ≠ s.hash.kb ∨ t.hash.dsize ≠ s.hash.dsize) →
    (∃ off w rest, s.port.pending = .access (.write off w) :: rest ∧ regAt off = .cmd ∧ decode w = .ok .init) ∨
    (∃ level rest, s.port.pending = .rst level :: rest) ∨ (∃ x rest, s.port.pending = .cutOff x :: rest)

/-- R41 (R342 marks its form of it "[derived: from `10_state.md` rule R41]"): `DOUT` changes only by a `SUM`, an `INIT`, a
`RESET` or hardware reset; `WRITE` and every other event leave it. -/
def Obligations.DoutIsStaleUntilSum : Prop :=
  ∀ s t : State, step s = .next t → t.regs.dout ≠ s.regs.dout →
    (∃ off w rest, s.port.pending = .access (.write off w) :: rest ∧ regAt off = .cmd ∧
      (decode w = .ok .sum ∨ decode w = .ok .init ∨ decode w = .ok .reset)) ∨
    (∃ level rest, s.port.pending = .rst level :: rest) ∨ (∃ x rest, s.port.pending = .cutOff x :: rest)

/-- From R204, R238 and R260 (R341 marks it "[derived: from `20_memory.md` rule R75 and `44_reset_cmd.md` rule R260]"): a
command other than `INIT` does not read `CFG`, `KEY` or `SALT`, and `WRITE n` reads `DIN[0..n)` only: with those registers
different, the command does the same to everything else. -/
def Obligations.StagingIsReadAtItsCommandOnly : Prop :=
  (∀ (i : Instr) (s t : State) (cfg : BitVec 24) (key : Vector Byte 64) (salt : Vector Byte 16), i ≠ .init →
    exec i s = .next t →
    exec i (s.setRegs { s.regs with cfg := cfg, key := key, salt := salt }) =
      .next (t.setRegs { t.regs with cfg := cfg, key := key, salt := salt })) ∧
  (∀ (n : Nat) (s t : State) (din : Vector Byte 128), (∀ k : Fin 128, k.val < n → din[k] = s.regs.din[k]) →
    exec (.write n) s = .next t →
    exec (.write n) (s.setRegs { s.regs with din := din }) = .next (t.setRegs { t.regs with din := din }))

/-- Every step keeps the invariant of the machine, from every state that has it. R46 lists the invariants and marks them
"[derived: from rules R130, R140, R202, R204, R232 and R260]", R29 likewise; that a port held in reset keeps the reset values is
the model's form of R330 (notes/assumptions/5.md). -/
def Obligations.EveryStepKeepsInvariant : Prop :=
  ∀ s t : State, Inv s → step s = .next t → Inv t

/-- The invariant (R46, marked "[derived: ...]" there) holds after hardware reset (R48). -/
def Obligations.ResetMeetsInvariant : Prop := Inv State.reset

/-! ## The compression function and the whole hash -/

/-- R165, R166, R167, R169: the compression function around its rounds. The working vector is `h` and `IV`, with the low counter
word in word 12, the high one in word 13, and word 14 inverted exactly when `last`; byte `b` of message word `j` is byte `8j +
b` of the block; and output word `i` is `h[i] ^ v[i] ^ v[i+8]` with `v` the vector after the rounds. The values of `IV` are the
spec's "[from general knowledge, not in source]" (notes/assumptions/10.md). -/
def Obligations.CompressionAroundItsRounds : Prop :=
  ∀ (h : Vector Word 8) (t : BitVec 128) (block : Vector Byte 128) (last : Bool),
    let v := workingVector h t last
    let m := messageWords block
    let r := mixRounds m v
    (∀ i : Fin 8, v[i.val]'(by omega) = h[i]) ∧ (∀ i : Fin 4, v[i.val + 8]'(by omega) = iv[i.val]'(by omega)) ∧
    v[12] = iv[4] ^^^ BitVec.ofNat 64 t.toNat ∧ v[13] = iv[5] ^^^ BitVec.ofNat 64 (t.toNat / 2 ^ 64) ∧
    v[14] = (if last then iv[6] ^^^ 0xFFFFFFFFFFFFFFFF#64 else iv[6]) ∧ v[15] = iv[7] ∧
    (∀ (j : Fin 16) (b : Fin 8), (m[j]).extractLsb' (8 * b.val) 8 = block[8 * j.val + b.val]'(by omega)) ∧
    (∀ i : Fin 8, (compressF h t block last)[i] = h[i] ^^^ r[i.val]'(by omega) ^^^ r[i.val + 8]'(by omega))

/-- R162, R163, R168: the rounds of the compression function. There are twelve, with rows 0 to 9 of `SIGMA` and then rows 0 and
1; a round is its eight steps in order; step `i` puts the results of G on the four words of the table of R163 and leaves the
other twelve words; and G is its four lines with rotations to the right by 32, 24, 16 and 63. The table of R163 and the rows of
`SIGMA` are the spec's "[from general knowledge, not in source]" (notes/assumptions/10.md). -/
def Obligations.TwelveRoundsOfEightSteps : Prop :=
  (∀ m v : Vector Word 16,
    mixRounds m v =
      ([0, 1, 2, 3, 4, 5, 6, 7, 8, 9, 0, 1] : List (Fin 10)).foldl
        (fun v row => ([0, 1, 2, 3, 4, 5, 6, 7] : List (Fin 8)).foldl (mixStep m sigma[row]) v) v) ∧
  (∀ (m : Vector Word 16) (s : Vector (Fin 16) 16) (v : Vector Word 16) (i : Fin 8),
    let table : Vector (Fin 16 × Fin 16 × Fin 16 × Fin 16) 8 :=
      #v[(0, 4, 8, 12), (1, 5, 9, 13), (2, 6, 10, 14), (3, 7, 11, 15),
         (0, 5, 10, 15), (1, 6, 11, 12), (2, 7, 8, 13), (3, 4, 9, 14)]
    let a := table[i].1
    let b := table[i].2.1
    let c := table[i].2.2.1
    let d := table[i].2.2.2
    let g := mixG v[a] v[b] v[c] v[d] m[s[2 * i.val]] m[s[2 * i.val + 1]]
    let w := mixStep m s v i
    w[a] = g.1 ∧ w[b] = g.2.1 ∧ w[c] = g.2.2.1 ∧ w[d] = g.2.2.2 ∧
    ∀ k : Fin 16, k ≠ a → k ≠ b → k ≠ c → k ≠ d → w[k] = v[k]) ∧
  (∀ a b c d x y : Word,
    let a1 := a + b + x
    let d1 := (d ^^^ a1).rotateRight 32
    let c1 := c + d1
    let b1 := (b ^^^ c1).rotateRight 24
    let a2 := a1 + b1 + y
    let d2 := (d1 ^^^ a2).rotateRight 16
    let c2 := c1 + d2
    let b2 := (b1 ^^^ c2).rotateRight 63
    mixG a b c d x y = (a2, b2, c2, d2))

/-- From the table of R163, which marks it "[derived: from this table]": the four column steps may run in any order, and so may
the four diagonal steps. -/
def Obligations.StepsOfOneGroupCommute : Prop :=
  ∀ (m : Vector Word 16) (s : Vector (Fin 16) 16) (v : Vector Word 16) (p : List (Fin 8)),
    (p.Perm [0, 1, 2, 3] → p.foldl (mixStep m s) v = [0, 1, 2, 3].foldl (mixStep m s) v) ∧
    (p.Perm [4, 5, 6, 7] → p.foldl (mixStep m s) v = [4, 5, 6, 7].foldl (mixStep m s) v)

/-- From R9: `rotr64` is rotation to the right, and by 63 it is rotation to the left by 1 (R162: "Rotation by 63 equals rotation
left by 1", marked "[derived: from this rule]"). -/
def Obligations.RotationsOfTheMixingStep : Prop :=
  (∀ (x : Word) (n : Nat), 1 ≤ n → n ≤ 63 → rotr64 x n = x.rotateRight n) ∧
  (∀ x : Word, rotr64 x 63 = x.rotateLeft 1)

/-- R161: each row of `SIGMA` is a permutation of 0 to 15, and the ten rows are distinct. The table itself is the spec's "[from
general knowledge, not in source]" (notes/assumptions/10.md). -/
def Obligations.SigmaRowsArePermutations : Prop :=
  (∀ r : Fin 10, (sigma[r]).toList.Perm (List.finRange 16)) ∧
  (∀ r q : Fin 10, r ≠ q → sigma[r] ≠ sigma[q])

/-- R2, R3: the machine computes, block by block over its own compression function, what BLAKE2b computes over F. From any state
with a legal configuration in `CFG`, `INIT`, the message written in chunks of at most 128 bytes however it is split, and `SUM`
complete, and leave in `DOUT` the digest of the block-by-block definition `referenceDigest` up to the configured size, and zeros
above it. The reference shares `compressF`, `iv`, `paramBlock`, `keyBlock` and `serialize` with the model
(notes/assumptions/10.md), so this says how blocks, counters and padding are put together. What the shared parts are is said by
other statements: `compressF` by CompressionAroundItsRounds and TwelveRoundsOfEightSteps, the parameter block by
ChainOfConfiguration, the key block by InitSetsUpConfiguredHash, the serialization by SumOutputsFinalDigest. -/
def Obligations.DigestIsBlockwiseOverModelF : Prop :=
  ∀ (s : State) (cs : List (List Byte)),
    let kl := (s.regs.cfg.extractLsb' 8 8).toNat
    let sl := (s.regs.cfg.extractLsb' 16 8).toNat
    let ds := clampDigestSize (s.regs.cfg.extractLsb' 0 8)
    kl ≤ 64 → sl ≤ 16 → (∀ c ∈ cs, c.length ≤ 128) →
    ∃ a b c, exec .init s = .next a ∧ writeChunks cs a = .next b ∧ exec .sum b = .next c ∧
      ∀ i : Fin 64, c.regs.dout[i] =
        if i.val < ds.toNat
        then (referenceDigest ds (s.regs.key.toList.take kl) (s.regs.salt.toList.take sl) cs.flatten)[i] else 0

/-- From R107, R108 (`MAC`) and R353: the host program of the macro, run from any state with `rst` deasserted, ends with the
sixteen digest words as its last answers. They assemble to the digest of the message under the key, of the requested size if
that is 1 to 64 and of 64 bytes for the requests 0 and 65 to 255 (R130), followed by zeros. The model's choices in it: the port
(notes/assumptions/1.md), `BASE` as an opaque constant (notes/assumptions/8.md), a digest by the reference over the model's own
compression function (notes/assumptions/10.md), and one split of the message, into chunks of 128 bytes with no `WRITE` for an
empty message, where R108 allows any (notes/assumptions/12.md). -/
def Obligations.MacProgramReadsBlockwiseDigest : Prop :=
  ∀ (s : State) (key msg : List Byte) (ds : Nat), s.port.rst = false → key.length ≤ 64 → ds ≤ 255 →
    let size : BitVec 7 := if 1 ≤ ds ∧ ds ≤ 64 then BitVec.ofNat 7 ds else 64#7
    let digest := (referenceDigest size key [] msg).toList.take size.toNat
    ∃ t words, runProgram (macMacro key msg ds) s = .next t ∧
      words.length = 16 ∧ observedReads t = observedReads s ++ words ∧
      assembleDigest words 64 = digest ++ List.replicate (64 - size.toNat) 0 ∧
      (1 ≤ ds → ds ≤ 64 → assembleDigest words ds = digest)
end

