-- ==== Sys2Proof/Laws/Bytes.lean ====
section
/-! SUPPORT. The byte-order helpers and operand builders, read back element by element. -/

namespace Sys2Proof.Machine

@[simp] theorem getElem_tabulate {α : Type} {n : Nat} (f : Fin n → α) (i : Nat) (h : i < n) :
    (tabulate f)[i] = f ⟨i, h⟩ := by
  rw [tabulate, Vector.getElem_ofFn]

@[simp] theorem getElem_zeros {n : Nat} (i : Nat) (h : i < n) : (zeros n)[i] = 0 := by
  rw [zeros, Vector.getElem_replicate]

theorem zeros_eq_replicate (n : Nat) : zeros n = Vector.replicate n 0 := by
  rw [zeros]

theorem byteAt_of_lt {n : Nat} (b : Vector Byte n) {i : Nat} (h : i < n) : byteAt b i = b[i] := by
  rw [byteAt, Vector.getElem?_eq_getElem h, Option.getD_some]

theorem byteAt_of_ge {n : Nat} (b : Vector Byte n) {i : Nat} (h : n ≤ i) : byteAt b i = 0 := by
  rw [byteAt, Vector.getElem?_eq_none h, Option.getD_none]

theorem getElem_storeWord {n : Nat} (win : Vector Byte n) (k : Nat) (w : HostWord) (i : Nat) (h : i < n) :
    (storeWord win k w)[i] = if k ≤ i ∧ i < k + 4 then hostByte w (i - k) else win[i] := by
  rw [storeWord, getElem_tabulate]
  rfl

theorem getElem_overwrite {n : Nat} (bytes : List Byte) (win : Vector Byte n) (i : Nat) (h : i < n) :
    (overwrite bytes win)[i] = bytes[i]?.getD win[i] := by
  rw [overwrite, getElem_tabulate]
  rfl

theorem getElem_keyBlock (kl : Nat) (key : Vector Byte 64) (i : Nat) (h : i < 128) :
    (keyBlock kl key)[i] = if i < kl then byteAt key i else 0 := by
  rw [keyBlock, getElem_tabulate]

/-- The key block of an empty key is all zero (R135). -/
theorem keyBlock_zero (key : Vector Byte 64) : keyBlock 0 key = zeros 128 := by
  ext i h
  rw [getElem_keyBlock, getElem_zeros, if_neg (by omega)]

theorem getElem_paramBlock (ds : BitVec 7) (kl : Byte) (sl : Nat) (salt : Vector Byte 16) (i : Nat) (h : i < 128) :
    (paramBlock ds kl sl salt)[i] =
      if i = 0 then ds.setWidth 8 else if i = 1 then kl else if i = 2 then 1 else if i = 3 then 1
      else if 32 ≤ i ∧ i < 32 + sl then byteAt salt (i - 32) else 0 := by
  rw [paramBlock, getElem_tabulate]

theorem getElem_initialChain (p : Vector Byte 128) (i : Nat) (h : i < 8) :
    (initialChain p)[i] = iv[i] ^^^ le64 p (8 * i) := by
  rw [initialChain, getElem_tabulate]
  rfl

theorem getElem_finalBlock (buf : Vector Byte 128) (off : Fin 129) (i : Nat) (h : i < 128) :
    (finalBlock buf off)[i] = if i < off.val then buf[i] else 0 := by
  rw [finalBlock, getElem_tabulate]
  rfl

theorem getElem_serialize (h : Vector Word 8) (i : Nat) (hi : i < 64) :
    (serialize h)[i] = wordByte (h[i / 8]'(by omega)) (i % 8) := by
  rw [serialize, getElem_tabulate]

theorem getElem_digestWindow (d : BitVec 7) (h : Vector Word 8) (i : Nat) (hi : i < 64) :
    (digestWindow d h)[i] = if i < d.toNat then (serialize h)[i] else 0 := by
  rw [digestWindow, getElem_tabulate]
  rfl

theorem getElem_streamBlock (stream : List Byte) (i : Nat) (k : Nat) (h : k < 128) :
    (streamBlock stream i)[k] = stream[128 * i + k]?.getD 0 := by
  rw [streamBlock, getElem_tabulate]

theorem inputBytes_length {n : Nat} (r : HostRegs) (h : n ≤ 128) : (inputBytes n r).length = n := by
  rw [inputBytes, List.length_take, Vector.length_toList, Nat.min_eq_left h]

theorem getElem?_inputBytes {n : Nat} (r : HostRegs) (i : Nat) (h : i < n) :
    (inputBytes n r)[i]?.getD 0 = byteAt r.din i := by
  rw [inputBytes, List.getElem?_take, if_pos h, byteAt, Vector.getElem?_toList]

theorem clampDigestSize_range (d : Byte) : 1 ≤ (clampDigestSize d).toNat ∧ (clampDigestSize d).toNat ≤ 64 := by
  unfold clampDigestSize
  split
  · rw [BitVec.toNat_setWidth]
    omega
  · decide

/-- `LE64` looks at eight bytes only. -/
theorem le64_congr {n m : Nat} {a : Vector Byte n} {b : Vector Byte m} {k l : Nat}
    (h : ∀ j, j < 8 → byteAt a (k + j) = byteAt b (l + j)) : le64 a k = le64 b l := by
  have h0 := h 0 (by omega)
  rw [Nat.add_zero, Nat.add_zero] at h0
  rw [le64, le64, h0, h 1 (by omega), h 2 (by omega), h 3 (by omega), h 4 (by omega), h 5 (by omega),
    h 6 (by omega), h 7 (by omega)]

/-- `LE32` looks at four bytes only. -/
theorem le32_congr {n m : Nat} {a : Vector Byte n} {b : Vector Byte m} {k l : Nat}
    (h : ∀ j, j < 4 → byteAt a (k + j) = byteAt b (l + j)) : le32 a k = le32 b l := by
  have h0 := h 0 (by omega)
  rw [Nat.add_zero, Nat.add_zero] at h0
  rw [le32, le32, h0, h 1 (by omega), h 2 (by omega), h 3 (by omega)]

/-- Byte `j` of `LE32(B, k)` is `B[k + j]` (R10, R64). -/
theorem hostByte_le32 {n : Nat} (b : Vector Byte n) (k j : Nat) (h : j < 4) :
    hostByte (le32 b k) j = byteAt b (k + j) := by
  unfold hostByte le32
  apply BitVec.eq_of_getLsbD_eq
  intro i hi
  rw [BitVec.getLsbD_extractLsb', BitVec.getLsbD_append, BitVec.getLsbD_append, BitVec.getLsbD_append]
  have hj : j = 0 ∨ j = 1 ∨ j = 2 ∨ j = 3 := by omega
  rcases hj with rfl | rfl | rfl | rfl
  · rw [if_pos (by omega)]
    simp [hi]
  · rw [if_neg (by omega), if_pos (by omega)]
    simp [hi]
  · rw [if_neg (by omega), if_neg (by omega), if_pos (by omega)]
    simp only [hi, decide_true, Bool.true_and]
    congr 1
    omega
  · rw [if_neg (by omega), if_neg (by omega), if_neg (by omega)]
    simp only [hi, decide_true, Bool.true_and]
    congr 1
    omega

/-- A host word is its four bytes. -/
theorem hostWord_eq_of_bytes {v w : HostWord} (h : ∀ j, j < 4 → hostByte v j = hostByte w j) : v = w := by
  apply BitVec.eq_of_getLsbD_eq
  intro i hi
  have hb := congrArg (fun x => BitVec.getLsbD x (i % 8)) (h (i / 8) (by omega))
  simp only [hostByte, BitVec.getLsbD_extractLsb'] at hb
  have h8 : i % 8 < 8 := by omega
  have hs : 8 * (i / 8) + i % 8 = i := by omega
  simpa [h8, hs] using hb

/-- Storing a word and reading it back at the same place of a byte window (R64). -/
theorem le32_storeWord {n : Nat} (win : Vector Byte n) (k : Nat) (w : HostWord) (h : k + 4 ≤ n) :
    le32 (storeWord win k w) k = w := by
  apply hostWord_eq_of_bytes
  intro j hj
  rw [hostByte_le32 _ _ _ hj, byteAt_of_lt _ (by omega), getElem_storeWord, if_pos (by omega)]
  congr 1
  omega

/-- A word of a byte window does not see a store elsewhere in the window (R64). -/
theorem le32_storeWord_of_ne {n : Nat} (win : Vector Byte n) (j k : Nat) (w : HostWord)
    (h : j + 4 ≤ k ∨ k + 4 ≤ j) : le32 (storeWord win k w) j = le32 win j := by
  apply le32_congr
  intro i hi
  by_cases hn : j + i < n
  · rw [byteAt_of_lt _ hn, byteAt_of_lt _ hn, getElem_storeWord, if_neg (by omega)]
  · rw [byteAt_of_ge _ (by omega), byteAt_of_ge _ (by omega)]

end Sys2Proof.Machine
end

