-- ==== Sys2Proof/Laws/State.lean ====
section
/-! SUPPORT. What each named update writes and what it leaves: one lemma per field per update. -/

namespace Sys2Proof.Machine

/-! Reporting an error writes `ERR` only (R302). -/

section
variable (c : ResultCode) (s : State)

@[simp] theorem State.raiseCmdError_hash : (s.raiseCmdError c).hash = s.hash := rfl
@[simp] theorem State.raiseCmdError_err : (s.raiseCmdError c).err = c := rfl
@[simp] theorem State.raiseCmdError_regs : (s.raiseCmdError c).regs = s.regs := rfl
@[simp] theorem State.raiseCmdError_port : (s.raiseCmdError c).port = s.port := rfl

end

/-! Completing a command writes `ERR` only (R303). -/

section
variable (s : State)

@[simp] theorem State.completeOk_hash : (s.completeOk).hash = s.hash := rfl
@[simp] theorem State.completeOk_err : (s.completeOk).err = .ok := rfl
@[simp] theorem State.completeOk_regs : (s.completeOk).regs = s.regs := rfl
@[simp] theorem State.completeOk_port : (s.completeOk).port = s.port := rfl

end

/-! A new hash state. -/

section
variable (x : HashState) (s : State)

@[simp] theorem State.setHash_hash : (s.setHash x).hash = x := rfl
@[simp] theorem State.setHash_err : (s.setHash x).err = s.err := rfl
@[simp] theorem State.setHash_regs : (s.setHash x).regs = s.regs := rfl
@[simp] theorem State.setHash_port : (s.setHash x).port = s.port := rfl

end

/-! New staging registers. -/

section
variable (r : HostRegs) (s : State)

@[simp] theorem State.setRegs_hash : (s.setRegs r).hash = s.hash := rfl
@[simp] theorem State.setRegs_err : (s.setRegs r).err = s.err := rfl
@[simp] theorem State.setRegs_regs : (s.setRegs r).regs = r := rfl
@[simp] theorem State.setRegs_port : (s.setRegs r).port = s.port := rfl

end

/-! A new digest window. -/

section
variable (d : Vector Byte 64) (s : State)

@[simp] theorem State.setDigest_hash : (s.setDigest d).hash = s.hash := rfl
@[simp] theorem State.setDigest_err : (s.setDigest d).err = s.err := rfl
@[simp] theorem State.setDigest_regs_cfg : (s.setDigest d).regs.cfg = s.regs.cfg := rfl
@[simp] theorem State.setDigest_regs_key : (s.setDigest d).regs.key = s.regs.key := rfl
@[simp] theorem State.setDigest_regs_salt : (s.setDigest d).regs.salt = s.regs.salt := rfl
@[simp] theorem State.setDigest_regs_din : (s.setDigest d).regs.din = s.regs.din := rfl
@[simp] theorem State.setDigest_regs_dout : (s.setDigest d).regs.dout = d := rfl
@[simp] theorem State.setDigest_port : (s.setDigest d).port = s.port := rfl

end

/-! An answer at the port. -/

section
variable (r : Response) (s : State)

@[simp] theorem State.respond_hash : (s.respond r).hash = s.hash := rfl
@[simp] theorem State.respond_err : (s.respond r).err = s.err := rfl
@[simp] theorem State.respond_regs : (s.respond r).regs = s.regs := rfl
@[simp] theorem State.respond_port_rst : (s.respond r).port.rst = s.port.rst := rfl
@[simp] theorem State.respond_port_pending : (s.respond r).port.pending = s.port.pending := rfl
@[simp] theorem State.respond_port_responses : (s.respond r).port.responses = s.port.responses ++ [r] := rfl
@[simp] theorem State.respond_port_freeIndex : (s.respond r).port.freeIndex = s.port.freeIndex := rfl

end

/-! New pending events. -/

section
variable (es : List HostEvent) (s : State)

@[simp] theorem State.setPending_hash : (s.setPending es).hash = s.hash := rfl
@[simp] theorem State.setPending_err : (s.setPending es).err = s.err := rfl
@[simp] theorem State.setPending_regs : (s.setPending es).regs = s.regs := rfl
@[simp] theorem State.setPending_port_rst : (s.setPending es).port.rst = s.port.rst := rfl
@[simp] theorem State.setPending_port_pending : (s.setPending es).port.pending = es := rfl
@[simp] theorem State.setPending_port_responses : (s.setPending es).port.responses = s.port.responses := rfl
@[simp] theorem State.setPending_port_freeIndex : (s.setPending es).port.freeIndex = s.port.freeIndex := rfl

end

/-! A new level of `rst`. -/

section
variable (l : Bool) (s : State)

@[simp] theorem State.setRst_hash : (s.setRst l).hash = s.hash := rfl
@[simp] theorem State.setRst_err : (s.setRst l).err = s.err := rfl
@[simp] theorem State.setRst_regs : (s.setRst l).regs = s.regs := rfl
@[simp] theorem State.setRst_port_rst : (s.setRst l).port.rst = l := rfl
@[simp] theorem State.setRst_port_pending : (s.setRst l).port.pending = s.port.pending := rfl
@[simp] theorem State.setRst_port_responses : (s.setRst l).port.responses = s.port.responses := rfl
@[simp] theorem State.setRst_port_freeIndex : (s.setRst l).port.freeIndex = s.port.freeIndex := rfl

end

/-! Hardware reset (R48, R330). -/

section
variable (s : State)

@[simp] theorem State.hardwareReset_hash : (s.hardwareReset).hash = HashState.reset := rfl
@[simp] theorem State.hardwareReset_err : (s.hardwareReset).err = .ok := rfl
@[simp] theorem State.hardwareReset_regs : (s.hardwareReset).regs = HostRegs.reset := rfl
@[simp] theorem State.hardwareReset_port : (s.hardwareReset).port = s.port := rfl

end

/-! A command word at the port. -/

section
variable (w : HostWord) (s : State)

@[simp] theorem State.presentCommand_hash : (s.presentCommand w).hash = s.hash := rfl
@[simp] theorem State.presentCommand_err : (s.presentCommand w).err = s.err := rfl
@[simp] theorem State.presentCommand_regs : (s.presentCommand w).regs = s.regs := rfl
@[simp] theorem State.presentCommand_port_rst : (s.presentCommand w).port.rst = false := rfl
@[simp] theorem State.presentCommand_port_pending : (s.presentCommand w).port.pending = .access (.write 0x000#9 w) :: s.port.pending := rfl
@[simp] theorem State.presentCommand_port_responses : (s.presentCommand w).port.responses = s.port.responses := rfl
@[simp] theorem State.presentCommand_port_freeIndex : (s.presentCommand w).port.freeIndex = s.port.freeIndex := rfl

end

/-! A host program at the port. -/

section
variable (p : List HostEvent) (s : State)

@[simp] theorem State.withProgram_hash : (s.withProgram p).hash = s.hash := rfl
@[simp] theorem State.withProgram_err : (s.withProgram p).err = s.err := rfl
@[simp] theorem State.withProgram_regs : (s.withProgram p).regs = s.regs := rfl
@[simp] theorem State.withProgram_port_rst : (s.withProgram p).port.rst = s.port.rst := rfl
@[simp] theorem State.withProgram_port_pending : (s.withProgram p).port.pending = p := rfl
@[simp] theorem State.withProgram_port_responses : (s.withProgram p).port.responses = s.port.responses := rfl
@[simp] theorem State.withProgram_port_freeIndex : (s.withProgram p).port.freeIndex = s.port.freeIndex := rfl

end

/-! Bytes in `DIN`. -/

section
variable (bytes : List Byte) (s : State)

@[simp] theorem State.loadInput_hash : (s.loadInput bytes).hash = s.hash := rfl
@[simp] theorem State.loadInput_err : (s.loadInput bytes).err = s.err := rfl
@[simp] theorem State.loadInput_regs_cfg : (s.loadInput bytes).regs.cfg = s.regs.cfg := rfl
@[simp] theorem State.loadInput_regs_key : (s.loadInput bytes).regs.key = s.regs.key := rfl
@[simp] theorem State.loadInput_regs_salt : (s.loadInput bytes).regs.salt = s.regs.salt := rfl
@[simp] theorem State.loadInput_regs_din : (s.loadInput bytes).regs.din = overwrite bytes s.regs.din := rfl
@[simp] theorem State.loadInput_regs_dout : (s.loadInput bytes).regs.dout = s.regs.dout := rfl
@[simp] theorem State.loadInput_port : (s.loadInput bytes).port = s.port := rfl

end

/-! `CompressBlock` (R200). -/

section
variable (x : HashState)

@[simp] theorem HashState.compressBlock_conf : (x.compressBlock).conf = x.conf := rfl
@[simp] theorem HashState.compressBlock_h : (x.compressBlock).h = compressF x.h (advanceCounter x.t) x.buf false := rfl
@[simp] theorem HashState.compressBlock_hinit : (x.compressBlock).hinit = x.hinit := rfl
@[simp] theorem HashState.compressBlock_t : (x.compressBlock).t = advanceCounter x.t := rfl
@[simp] theorem HashState.compressBlock_buf : (x.compressBlock).buf = x.buf := rfl
@[simp] theorem HashState.compressBlock_off : (x.compressBlock).off = 0 := rfl
@[simp] theorem HashState.compressBlock_keyed : (x.compressBlock).keyed = x.keyed := rfl
@[simp] theorem HashState.compressBlock_kb : (x.compressBlock).kb = x.kb := rfl
@[simp] theorem HashState.compressBlock_dsize : (x.compressBlock).dsize = x.dsize := rfl

end

/-! An empty hash (R140, R260). -/

section
variable (h : Vector Word 8) (x : HashState)

@[simp] theorem HashState.start_conf : (x.start h).conf = x.conf := rfl
@[simp] theorem HashState.start_h : (x.start h).h = h := rfl
@[simp] theorem HashState.start_hinit : (x.start h).hinit = x.hinit := rfl
@[simp] theorem HashState.start_t : (x.start h).t = 0 := rfl
@[simp] theorem HashState.start_buf : (x.start h).buf = zeros 128 := rfl
@[simp] theorem HashState.start_off : (x.start h).off = 0 := rfl
@[simp] theorem HashState.start_keyed : (x.start h).keyed = x.keyed := rfl
@[simp] theorem HashState.start_kb : (x.start h).kb = x.kb := rfl
@[simp] theorem HashState.start_dsize : (x.start h).dsize = x.dsize := rfl

end

/-! The hash state of a configuration (R140). -/

section
variable (r : HostRegs) (x : HashState)

@[simp] theorem HashState.configure_conf : (x.configure r).conf = true := rfl
@[simp] theorem HashState.configure_h : (x.configure r).h = configuredChain r := rfl
@[simp] theorem HashState.configure_hinit : (x.configure r).hinit = x.hinit := rfl
@[simp] theorem HashState.configure_t : (x.configure r).t = 0 := rfl
@[simp] theorem HashState.configure_buf : (x.configure r).buf = zeros 128 := rfl
@[simp] theorem HashState.configure_off : (x.configure r).off = 0 := rfl
@[simp] theorem HashState.configure_keyed : (x.configure r).keyed = decide (0 < (keyLength r).toNat) := rfl
@[simp] theorem HashState.configure_kb : (x.configure r).kb = keyBlock (keyLength r).toNat r.key := rfl
@[simp] theorem HashState.configure_dsize : (x.configure r).dsize = clampDigestSize (digestRequest r) := rfl

end

/-! The snapshot (R138). -/

section
variable (x : HashState)

@[simp] theorem HashState.takeSnapshot_conf : (x.takeSnapshot).conf = x.conf := rfl
@[simp] theorem HashState.takeSnapshot_h : (x.takeSnapshot).h = x.h := rfl
@[simp] theorem HashState.takeSnapshot_hinit : (x.takeSnapshot).hinit = x.h := rfl
@[simp] theorem HashState.takeSnapshot_t : (x.takeSnapshot).t = x.t := rfl
@[simp] theorem HashState.takeSnapshot_buf : (x.takeSnapshot).buf = x.buf := rfl
@[simp] theorem HashState.takeSnapshot_off : (x.takeSnapshot).off = x.off := rfl
@[simp] theorem HashState.takeSnapshot_keyed : (x.takeSnapshot).keyed = x.keyed := rfl
@[simp] theorem HashState.takeSnapshot_kb : (x.takeSnapshot).kb = x.kb := rfl
@[simp] theorem HashState.takeSnapshot_dsize : (x.takeSnapshot).dsize = x.dsize := rfl

end

section
variable (f : State → State) (s : State)

theorem State.whenConfigured_of_configured (h : s.hash.conf = true) : s.whenConfigured f = (f s).completeOk := by
  rw [State.whenConfigured, if_pos h]

theorem State.whenConfigured_of_unconfigured (h : s.hash.conf = false) :
    s.whenConfigured f = s.raiseCmdError .notConfigured := by
  rw [State.whenConfigured, if_neg (by rw [h]; decide)]

end

/-! A write to a register other than `CMD` stores in a staging register at most: the hash state, `ERR`, `DOUT` and the port stay
(R282). -/

section
variable (r : WindowReg) (w : HostWord) (s : State)

@[simp] theorem writeReg_hash : (writeReg r w s).hash = s.hash := by cases r <;> rfl
@[simp] theorem writeReg_err : (writeReg r w s).err = s.err := by cases r <;> rfl
@[simp] theorem writeReg_port : (writeReg r w s).port = s.port := by cases r <;> rfl
@[simp] theorem writeReg_dout : (writeReg r w s).regs.dout = s.regs.dout := by cases r <;> rfl

end

end Sys2Proof.Machine
end

