-- ==== Sys2Proof/Laws/Ops.lean ====
section
/-! SUPPORT. What absorption, key absorption and the four meanings can do, said once. -/

namespace Sys2Proof.Machine

/-! ## Absorption -/

@[simp] theorem HashState.absorb_nil (x : HashState) : x.absorb [] = x := rfl

theorem HashState.absorb_cons (x : HashState) (b : Byte) (p : List Byte) :
    x.absorb (b :: p) = (x.absorbByte b).absorb p := rfl

/-- Absorption is a left fold over the bytes (R205). -/
theorem HashState.absorb_append (x : HashState) (p q : List Byte) : x.absorb (p ++ q) = (x.absorb p).absorb q :=
  List.foldl_append

/-- With room in the buffer, a byte is stored and nothing else changes. -/
theorem HashState.absorbByte_of_room (x : HashState) (b : Byte) (h : x.off ≠ 128) :
    x.absorbByte b = { x with buf := x.buf.setIfInBounds x.off.val b, off := x.off + 1 } := by
  simp only [HashState.absorbByte, if_neg h]

/-- With a full buffer, the buffer is compressed first, as a non-final block (R200). -/
theorem HashState.absorbByte_of_full (x : HashState) (b : Byte) (h : x.off = 128) :
    x.absorbByte b = { x.compressBlock with buf := x.buf.setIfInBounds 0 b, off := 1 } := by
  simp only [HashState.absorbByte, if_pos h]
  rfl

/-- The two cases of one iteration of `Absorb` (R202). -/
theorem HashState.absorbByte_cases (x : HashState) (b : Byte) :
    (x.off ≠ 128 ∧ x.absorbByte b = { x with buf := x.buf.setIfInBounds x.off.val b, off := x.off + 1 }) ∨
    (x.off = 128 ∧ x.absorbByte b = { x.compressBlock with buf := x.buf.setIfInBounds 0 b, off := 1 }) := by
  by_cases h : x.off = 128
  · exact .inr ⟨h, x.absorbByte_of_full b h⟩
  · exact .inl ⟨h, x.absorbByte_of_room b h⟩

/-- After a byte the buffer is not empty (R203). -/
theorem HashState.absorbByte_off_ne_zero (x : HashState) (b : Byte) : (x.absorbByte b).off ≠ 0 := by
  rcases x.absorbByte_cases b with ⟨hr, h⟩ | ⟨-, h⟩
  · rw [h]
    intro h0
    have h1 := congrArg Fin.val h0
    have h2 : x.off.val ≠ 128 := fun h2 => hr (Fin.ext h2)
    simp only [Fin.val_add, Fin.val_zero, Fin.val_one] at h1
    omega
  · rw [h]
    exact one_ne_zero

/-- One byte writes `H`, `T`, `BUF` and `OFF` only. -/
theorem HashState.absorbByte_frame (x : HashState) (b : Byte) :
    (x.absorbByte b).conf = x.conf ∧ (x.absorbByte b).hinit = x.hinit ∧ (x.absorbByte b).keyed = x.keyed ∧
      (x.absorbByte b).kb = x.kb ∧ (x.absorbByte b).dsize = x.dsize := by
  rcases x.absorbByte_cases b with ⟨-, h⟩ | ⟨-, h⟩ <;> rw [h] <;> exact ⟨rfl, rfl, rfl, rfl, rfl⟩

/-- Absorption writes `H`, `T`, `BUF` and `OFF` only (R202). -/
theorem HashState.absorb_frame (p : List Byte) (x : HashState) :
    (x.absorb p).conf = x.conf ∧ (x.absorb p).hinit = x.hinit ∧ (x.absorb p).keyed = x.keyed ∧
      (x.absorb p).kb = x.kb ∧ (x.absorb p).dsize = x.dsize := by
  induction p generalizing x with
  | nil => exact ⟨rfl, rfl, rfl, rfl, rfl⟩
  | cons b p ih =>
    have h1 := ih (x.absorbByte b)
    have h2 := x.absorbByte_frame b
    rw [HashState.absorb_cons]
    exact ⟨h1.1.trans h2.1, h1.2.1.trans h2.2.1, h1.2.2.1.trans h2.2.2.1, h1.2.2.2.1.trans h2.2.2.2.1,
      h1.2.2.2.2.trans h2.2.2.2.2⟩

section
variable (x : HashState) (p : List Byte)

@[simp] theorem HashState.absorb_conf : (x.absorb p).conf = x.conf := (x.absorb_frame p).1
@[simp] theorem HashState.absorb_hinit : (x.absorb p).hinit = x.hinit := (x.absorb_frame p).2.1
@[simp] theorem HashState.absorb_keyed : (x.absorb p).keyed = x.keyed := (x.absorb_frame p).2.2.1
@[simp] theorem HashState.absorb_kb : (x.absorb p).kb = x.kb := (x.absorb_frame p).2.2.2.1
@[simp] theorem HashState.absorb_dsize : (x.absorb p).dsize = x.dsize := (x.absorb_frame p).2.2.2.2

end

/-- Bytes that fit the buffer are stored from `OFF` on; nothing is compressed (R202, R203). -/
theorem HashState.absorb_of_fits (p : List Byte) (x : HashState) (h : x.off.val + p.length ≤ 128) :
    x.absorb p = { x with
      buf := tabulate fun k : Fin 128 =>
        if x.off.val ≤ k.val ∧ k.val < x.off.val + p.length then p[k.val - x.off.val]?.getD 0 else x.buf[k]
      off := Fin.ofNat 129 (x.off.val + p.length) } := by
  induction p generalizing x with
  | nil =>
    have hb : (tabulate fun k : Fin 128 =>
        if x.off.val ≤ k.val ∧ k.val < x.off.val + ([] : List Byte).length
        then (([] : List Byte)[k.val - x.off.val]?.getD 0) else x.buf[k]) = x.buf := by
      apply Vector.ext
      intro i hi
      rw [getElem_tabulate, if_neg (by simp only [List.length_nil]; omega)]
      rfl
    have ho : Fin.ofNat 129 (x.off.val + ([] : List Byte).length) = x.off := by
      apply Fin.ext
      rw [Fin.val_ofNat, List.length_nil]
      omega
    rw [hb, ho, HashState.absorb_nil]
  | cons b p ih =>
    rw [List.length_cons] at h
    have hroom : x.off ≠ 128 := by
      intro h'
      rw [h'] at h
      simp at h
    have hval : (x.off + 1).val = x.off.val + 1 := by
      rw [Fin.val_add, Fin.val_one]
      omega
    rw [HashState.absorb_cons, x.absorbByte_of_room b hroom, ih _ (by simp only [hval]; omega)]
    have hoff : Fin.ofNat 129 ((x.off + 1).val + p.length) = Fin.ofNat 129 (x.off.val + (b :: p).length) := by
      rw [hval, List.length_cons]
      congr 1
      omega
    have hbuf : (tabulate fun k : Fin 128 =>
        if (x.off + 1).val ≤ k.val ∧ k.val < (x.off + 1).val + p.length then p[k.val - (x.off + 1).val]?.getD 0
        else (x.buf.setIfInBounds x.off.val b)[k]) =
        tabulate fun k : Fin 128 =>
          if x.off.val ≤ k.val ∧ k.val < x.off.val + (b :: p).length then (b :: p)[k.val - x.off.val]?.getD 0
          else x.buf[k] := by
      apply Vector.ext
      intro i hi
      rw [getElem_tabulate, getElem_tabulate]
      simp only [hval, List.length_cons]
      by_cases h1 : x.off.val + 1 ≤ i ∧ i < x.off.val + 1 + p.length
      · rw [if_pos h1, if_pos (by omega)]
        obtain ⟨d, hd⟩ : ∃ d, i - x.off.val = d + 1 := ⟨i - x.off.val - 1, by omega⟩
        rw [hd, List.getElem?_cons_succ]
        congr 2
        omega
      · rw [if_neg h1]
        by_cases h2 : i = x.off.val
        · rw [if_pos (by omega)]
          simp [h2]
        · rw [if_neg (by omega)]
          simp [Vector.getElem_setIfInBounds_ne, Ne.symm h2]
    simp only [hoff, hbuf]

/-- A byte string splits at the point where the buffer becomes full (R202). -/
theorem HashState.absorb_split_full (p : List Byte) (x : HashState) :
    x.absorb p = (x.absorb (p.take (128 - x.off.val))).absorb (p.drop (128 - x.off.val)) := by
  rw [← HashState.absorb_append, List.take_append_drop]

/-- On an empty buffer the key block fills the buffer exactly and starts no compression (R137). -/
theorem HashState.absorbKey_of_empty (x : HashState) (h : x.off = 0) :
    x.absorbKey = if x.keyed then { x with buf := x.kb, off := 128 } else x := by
  unfold HashState.absorbKey
  split
  · have hv : x.off.val = 0 := by rw [h]; rfl
    rw [HashState.absorb_of_fits _ _ (by rw [hv, Vector.length_toList])]
    have hoff : Fin.ofNat 129 (x.off.val + x.kb.toList.length) = 128 := by
      rw [hv, Vector.length_toList]
      rfl
    have hbuf : (tabulate fun k : Fin 128 =>
        if x.off.val ≤ k.val ∧ k.val < x.off.val + x.kb.toList.length then x.kb.toList[k.val - x.off.val]?.getD 0
        else x.buf[k]) = x.kb := by
      apply Vector.ext
      intro i hi
      rw [getElem_tabulate]
      simp only [hv, Vector.length_toList]
      rw [if_pos (by omega)]
      simp [hi]
    rw [hoff, hbuf]
  · rfl

/-! ## The commands -/

/-- The two outcomes of `INIT`: an error code, or the configured hash state (R140). -/
theorem execInit_cases (s : State) :
    (∃ c, configError s.regs = some c ∧ c ≠ .ok ∧ execInit s = .next (s.raiseCmdError c)) ∨
    (configError s.regs = none ∧
      execInit s =
        .next ((s.setHash (s.hash.configure s.regs).absorbKey.takeSnapshot).setDigest (zeros 64)).completeOk) := by
  unfold execInit
  cases h : configError s.regs with
  | none => exact .inr ⟨rfl, rfl⟩
  | some c =>
    refine .inl ⟨c, rfl, ?_, rfl⟩
    intro hc
    subst hc
    unfold configError at h
    split at h
    · simp at h
    · split at h <;> simp at h

/-- The three outcomes of `WRITE n` (R204). -/
theorem execWrite_cases (n : Nat) (s : State) :
    (128 < n ∧ execWrite n s = .next (s.raiseCmdError .badLength)) ∨
    (n ≤ 128 ∧ s.hash.conf = false ∧ execWrite n s = .next (s.raiseCmdError .notConfigured)) ∨
    (n ≤ 128 ∧ s.hash.conf = true ∧
      execWrite n s = .next (s.setHash (s.hash.absorb (inputBytes n s.regs))).completeOk) := by
  unfold execWrite
  by_cases hn : 128 < n
  · exact .inl ⟨hn, by rw [if_pos hn]⟩
  · rw [if_neg hn]
    cases hc : s.hash.conf with
    | false => exact .inr (.inl ⟨by omega, rfl, by rw [State.whenConfigured_of_unconfigured _ _ hc]⟩)
    | true => exact .inr (.inr ⟨by omega, rfl, by rw [State.whenConfigured_of_configured _ _ hc]⟩)

/-- The two outcomes of `SUM` (R238). -/
theorem execSum_cases (s : State) :
    (s.hash.conf = false ∧ execSum s = .next (s.raiseCmdError .notConfigured)) ∨
    (s.hash.conf = true ∧
      execSum s = .next (s.setDigest (digestWindow s.hash.dsize (finalChain s.hash))).completeOk) := by
  unfold execSum
  cases hc : s.hash.conf with
  | false => exact .inl ⟨rfl, by rw [State.whenConfigured_of_unconfigured _ _ hc]⟩
  | true => exact .inr ⟨rfl, by rw [State.whenConfigured_of_configured _ _ hc]⟩

/-- The two outcomes of `RESET` (R260). -/
theorem execReset_cases (s : State) :
    (s.hash.conf = false ∧ execReset s = .next (s.raiseCmdError .notConfigured)) ∨
    (s.hash.conf = true ∧
      execReset s = .next ((s.setHash (s.hash.start s.hash.hinit).absorbKey).setDigest (zeros 64)).completeOk) := by
  unfold execReset
  cases hc : s.hash.conf with
  | false => exact .inl ⟨rfl, by rw [State.whenConfigured_of_unconfigured _ _ hc]⟩
  | true => exact .inr ⟨rfl, by rw [State.whenConfigured_of_configured _ _ hc]⟩

end Sys2Proof.Machine
end

