-- ==== Sys2Proof/Laws/Bus.lean ====
section
/-! SUPPORT. What one step can do, said once. -/

namespace Sys2Proof.Machine

/-- Every command answers a next state. -/
theorem exec_answers (i : Instr) (s : State) : ∃ t, exec i s = .next t := by
  cases i with
  | init => rcases execInit_cases s with ⟨c, -, -, h⟩ | ⟨-, h⟩ <;> exact ⟨_, h⟩
  | write n => rcases execWrite_cases n s with ⟨-, h⟩ | ⟨-, -, h⟩ | ⟨-, -, h⟩ <;> exact ⟨_, h⟩
  | sum => rcases execSum_cases s with ⟨-, h⟩ | ⟨-, h⟩ <;> exact ⟨_, h⟩
  | reset => rcases execReset_cases s with ⟨-, h⟩ | ⟨-, h⟩ <;> exact ⟨_, h⟩

/-- No command touches the port. -/
theorem exec_port {i : Instr} {s t : State} (h : exec i s = .next t) : t.port = s.port := by
  cases i with
  | init =>
    rcases execInit_cases s with ⟨c, -, -, h'⟩ | ⟨-, h'⟩ <;>
      (rw [show exec .init s = execInit s from rfl, h'] at h; injection h with h; rw [← h]; rfl)
  | write n =>
    rcases execWrite_cases n s with ⟨-, h'⟩ | ⟨-, -, h'⟩ | ⟨-, -, h'⟩ <;>
      (rw [show exec (.write n) s = execWrite n s from rfl, h'] at h; injection h with h; rw [← h]; rfl)
  | sum =>
    rcases execSum_cases s with ⟨-, h'⟩ | ⟨-, h'⟩ <;>
      (rw [show exec .sum s = execSum s from rfl, h'] at h; injection h with h; rw [← h]; rfl)
  | reset =>
    rcases execReset_cases s with ⟨-, h'⟩ | ⟨-, h'⟩ <;>
      (rw [show exec .reset s = execReset s from rfl, h'] at h; injection h with h; rw [← h]; rfl)

/-- Every word written to `CMD` answers a next state (R286: "never a hang or a bus error"). -/
theorem runCommand_answers (w : HostWord) (s : State) : ∃ t, runCommand w s = .next t := by
  unfold runCommand
  split
  · exact exec_answers _ _
  · exact ⟨_, rfl⟩

/-- A write to a register other than `CMD` stores and is acknowledged. -/
theorem serveAccess_write_of_ne_cmd (off : Offset) (w : HostWord) (s : State) (h : regAt off ≠ .cmd) :
    serveAccess (.write off w) s = .next ((writeReg (regAt off) w s).respond .writeAck) := by
  simp only [serveAccess]

/-- A write to `CMD` runs the command and is acknowledged. -/
theorem serveAccess_write_of_cmd (off : Offset) (w : HostWord) (s : State) (h : regAt off = .cmd) :
    serveAccess (.write off w) s = acknowledge (runCommand w s) := by
  simp only [serveAccess, h]

/-- The register of offset 0x000 is `CMD` (R62). -/
theorem regAt_cmd : regAt 0x000#9 = .cmd := by decide

/-- What one event does when it is answered, by the kind of event: a read, a staging write, a command word that decodes, one
that does not, a level of `rst` that resets, one that does not, and a transaction cut off by `rst`. -/
theorem serveEvent_cases {e : HostEvent} {s t : State} (h : serveEvent e s = .next t) :
    (∃ off, e = .access (.read off) ∧ s.port.rst = false ∧
        t = s.respond (.readData (readReg (regAt off) s))) ∨
    (∃ off w, e = .access (.write off w) ∧ s.port.rst = false ∧ regAt off ≠ .cmd ∧
        t = (writeReg (regAt off) w s).respond .writeAck) ∨
    (∃ off w i u, e = .access (.write off w) ∧ s.port.rst = false ∧ regAt off = .cmd ∧ decode w = .ok i ∧
        exec i s = .next u ∧ t = u.respond .writeAck) ∨
    (∃ off w x, e = .access (.write off w) ∧ s.port.rst = false ∧ regAt off = .cmd ∧ decode w = .error x ∧
        t = (s.raiseCmdError .illegalCommand).respond .writeAck) ∨
    (∃ level, e = .rst level ∧ (level = true ∨ s.port.rst = true) ∧ t = s.hardwareReset.setRst level) ∨
    (e = .rst false ∧ s.port.rst = false ∧ t = s) ∨
    (∃ x, e = .cutOff x ∧ s.port.rst = false ∧ t = (s.hardwareReset.respondCutOff x).setRst true) := by
  cases e with
  | access x =>
    cases hr : s.port.rst with
    | true => simp [serveEvent, hr] at h
    | false =>
      simp only [serveEvent, hr, Bool.false_eq_true, if_false] at h
      cases x with
      | read off =>
        injection h with h
        exact .inl ⟨off, rfl, rfl, h.symm⟩
      | write off w =>
        by_cases hc : regAt off = .cmd
        · rw [serveAccess_write_of_cmd _ _ _ hc] at h
          cases hd : decode w with
          | ok i =>
            obtain ⟨u, hu⟩ := exec_answers i s
            simp only [runCommand, hd, hu, acknowledge] at h
            injection h with h
            exact .inr (.inr (.inl ⟨off, w, i, u, rfl, rfl, hc, hd, hu, h.symm⟩))
          | error x =>
            simp only [runCommand, hd, acknowledge] at h
            injection h with h
            exact .inr (.inr (.inr (.inl ⟨off, w, x, rfl, rfl, hc, hd, h.symm⟩)))
        · rw [serveAccess_write_of_ne_cmd _ _ _ hc] at h
          injection h with h
          exact .inr (.inl ⟨off, w, rfl, rfl, hc, h.symm⟩)
  | rst level =>
    simp only [serveEvent] at h
    split at h
    · rename_i hl
      injection h with h
      exact .inr (.inr (.inr (.inr (.inl ⟨level, rfl, by simpa using hl, h.symm⟩))))
    · rename_i hl
      injection h with h
      have hl' : level = false ∧ s.port.rst = false := by simpa using hl
      obtain ⟨rfl, hr⟩ := hl'
      exact .inr (.inr (.inr (.inr (.inr (.inl ⟨rfl, hr, h.symm⟩)))))
  | cutOff x =>
    cases hr : s.port.rst with
    | true => simp [serveEvent, hr] at h
    | false =>
      simp only [serveEvent, hr, Bool.false_eq_true, if_false] at h
      injection h with h
      exact .inr (.inr (.inr (.inr (.inr (.inr ⟨x, rfl, rfl, h.symm⟩)))))

/-- A step with nothing pending changes nothing; any other step serves the oldest event on the state without it (R71, R353). -/
theorem step_cases {s t : State} (h : step s = .next t) :
    (s.port.pending = [] ∧ t = s) ∨
    ∃ e rest, s.port.pending = e :: rest ∧ serveEvent e (s.setPending rest) = .next t := by
  unfold step serveNext at h
  split at h
  · rename_i hp
    injection h with h
    exact .inl ⟨hp, h.symm⟩
  · rename_i e rest hp
    exact .inr ⟨e, rest, hp, h⟩

theorem step_of_cons {s : State} {e : HostEvent} {rest : List HostEvent} (h : s.port.pending = e :: rest) :
    step s = serveEvent e (s.setPending rest) := by
  simp only [step, serveNext, h]

theorem step_of_nil {s : State} (h : s.port.pending = []) : step s = .next s := by
  simp only [step, serveNext, h]

/-- The answer to a cut-off transaction leaves the registers, `rst` and what is pending as they are (R331). -/
theorem State.respondCutOff_frame (x : Transaction) (s : State) :
    (s.respondCutOff x).hash = s.hash ∧ (s.respondCutOff x).err = s.err ∧ (s.respondCutOff x).regs = s.regs ∧
      (s.respondCutOff x).port.rst = s.port.rst ∧ (s.respondCutOff x).port.pending = s.port.pending := by
  unfold State.respondCutOff
  cases hc : Config.cutOffAcked s.port.freeIndex <;> cases x <;> simp [hc]

/-- `BASE + off` reaches the window offset `off`, whatever `BASE` is (R61). -/
theorem portOffset_busAddress (off : Offset) : portOffset (busAddress off) = off := by
  apply BitVec.eq_of_toNat_eq
  have := off.isLt
  simp only [portOffset, busAddress, Config.base, BitVec.toNat_ofNat]
  omega

/-- A host line reaches the port at its offset. -/
theorem wr_eq (off : Nat) (w : HostWord) : wr off w = .access (.write (BitVec.ofNat 9 off) w) := by
  rw [wr, portOffset_busAddress]

theorem rd_eq (off : Nat) : rd off = .access (.read (BitVec.ofNat 9 off)) := by
  rw [rd, portOffset_busAddress]

end Sys2Proof.Machine
end

