-- ==== Sys2Proof/Laws/PerInstr.lean ====
section
/-! SUPPORT. Families of lemmas with one lemma per command. `EncodingFields`: the three fields of a well-formed command's word
(spec/30_encoding.md R101, R103). -/

namespace Sys2Proof.Laws.EncodingFields

/-- The word of a well-formed command holds its opcode, its count and a zero reserved field. -/
def Statement (i : Instr) : Prop :=
  i.wellFormed = true →
    opField (encode i) = opcodeOf i ∧ lenField (encode i) = lengthOf i ∧ rsvField (encode i) = 0

theorem init : Statement .init := fun _ => by decide

theorem write (n : Nat) : Statement (.write n) := fun _ => by
  refine ⟨?_, ?_, ?_⟩ <;> apply BitVec.eq_of_getLsbD_eq <;> intro i hi <;>
    simp only [opField, lenField, rsvField, encode, BitVec.getLsbD_extractLsb', BitVec.getLsbD_append, hi, decide_true,
      Bool.true_and]
  · rw [if_pos (by omega), Nat.zero_add]
  · rw [if_neg (by omega), if_pos (by omega), Nat.add_sub_cancel_left]
  · rw [if_neg (by omega), if_neg (by omega)]
    simp

theorem sum : Statement .sum := fun _ => by decide

theorem reset : Statement .reset := fun _ => by decide

end Sys2Proof.Laws.EncodingFields
end

