-- ==== Sys2Proof/Tests/Slice0.lean ====
section
/-! SUPPORT. Tests of the model on the values of spec/95_test_vectors.md, and for every statement with hypotheses a witness that
meets them (the witnesses name the statement). Expected values come from the spec's text. -/

open Sys2Proof Sys2Proof.Machine

namespace Sys2Proof.Tests

/-! ## Helpers -/

/-- A host write, at a bus address of the block. -/
def poke (off : Offset) (w : HostWord) : HostEvent := .access (.write off w)

/-- A host read. -/
def peek (off : Offset) : HostEvent := .access (.read off)

/-- What the reads of a program return, from a state. -/
def readsFrom (s : State) (program : List HostEvent) : List HostWord :=
  match runProgram program s with
  | .next t => observedReads t
  | .fault _ => []
  | .refused _ => []

/-- An unkeyed configured block with a 64-byte digest and `n` bytes 0x00 absorbed, all of them in the buffer. -/
def holding (n : Fin 129) : State :=
  { State.reset with
    hash := { HashState.reset with conf := true, h := iv, hinit := iv, off := n, dsize := 64#7 } }

/-- The same block with `DOUT` not zero. -/
def holdingDigest (n : Fin 129) : State := (holding n).setDigest (Vector.replicate 64 0x5A#8)

/-- A block with `CFG` as given, not configured yet. -/
def staged (cfg : BitVec 24) : State := State.reset.setRegs { HostRegs.reset with cfg := cfg }

/-! ## Decode (spec/95_test_vectors.md §3.8, spec/30_encoding.md R101) -/

theorem test_decode_init : decode 0b0000000000000000_00000000_00000001#32 = .ok .init := by decide

theorem test_decode_write : decode 0b0000000000000000_00000011_00000010#32 = .ok (.write 3) := by decide

theorem test_decode_write_longest : decode 0b0000000000000000_11111111_00000010#32 = .ok (.write 255) := by decide

theorem test_decode_sum : decode 0b0000000000000000_00000000_00000011#32 = .ok .sum := by decide

theorem test_decode_reset : decode 0b0000000000000000_00000000_00000100#32 = .ok .reset := by decide

theorem test_decode_undefined_opcode : decode 0x00012345#32 = .error .undefinedOpcode := by decide

theorem test_decode_reserved_bits : decode 0x00010002#32 = .error .reservedBits := by decide

theorem test_decode_unexpected_length : decode 0x00000103#32 = .error .unexpectedLength := by decide

theorem test_encode_write_128 : encode (.write 128) = 0x00008002#32 := by decide

/-- The only check of `wellFormed`: a count that does not fit `LEN`. -/
theorem test_ill_formed_count : (Instr.write 256).wellFormed = false := by decide

/-! ## The compression core (spec/95_test_vectors.md §3.1, §3.3) -/

theorem test_rotr63 : rotr64 0x0123456789abcdef#64 63 = 0x02468acf13579bde#64 := by decide

theorem test_rotr24 : rotr64 0x0123456789abcdef#64 24 = 0xabcdef0123456789#64 := by decide

theorem test_mixG : mixG 1 2 3 4 5 6 =
    (0x0000010000000c0e#64, 0x181c021802181806#64, 0x0c0e000c010c0003#64, 0x0c0e0000010c0000#64) := by decide

/-- `F` with t = 2^64: the high counter word reaches `v[13]` (§3.3, third row). -/
theorem test_compressF_high_counter :
    compressF iv 0x10000000000000000#128 (zeros 128) false =
      #v[0x66581b4e441ac020, 0xaad3e5eec8000706, 0xbe911d307cb2bfd9, 0xbb568826128232d2,
         0xbcab2cefcd84c79f, 0xb4bfc1f422a14843, 0x1c059826d4392217, 0x98452eaf1e2f7cda] := by decide +kernel

/-! ## Commands (spec/95_test_vectors.md §3.2, §3.5 to §3.7, §3.10, §5) -/

/-- §3.2: `CFG = 0x00002020`, keyed: `STATUS`, `SIZE`, `CNT0`. -/
theorem test_init_keyed :
    readsFrom State.reset [poke 0x008 0x00002020, poke 0x000 0x00000001, peek 0x004, peek 0x00C, peek 0x020] =
      [0x00008003, 0x00000020, 0x00000000] := by decide +kernel

/-- §3.2: both lengths too large: the key is checked first. -/
theorem test_init_key_before_salt :
    readsFrom State.reset [poke 0x008 0x00114140, poke 0x000 0x00000001, peek 0x004, peek 0x00C] =
      [0x00010000, 0x00000000] := by decide +kernel

/-- §3.2: `H[0]` after `INIT` with the reset value of `CFG`, and `H[4]` with a two-byte salt. -/
theorem test_initial_chain :
    (initialChain (paramBlock 64#7 0 0 (zeros 16)))[0] = 0x6a09e667f2bdc948#64 ∧
    (initialChain (paramBlock 64#7 0 2 (storeWord (zeros 16) 0 0x0000bbaa#32)))[4] = 0x510e527fade6397b#64 := by
  decide +kernel

/-- §5 P1: `WRITE 3` of "abc" stays in the buffer. -/
theorem test_write_abc :
    readsFrom State.reset [poke 0x000 0x00000001, poke 0x100 0x00636261, poke 0x000 0x00000302, peek 0x004, peek 0x020] =
      [0x00000301, 0x00000000] := by decide +kernel

/-- §3.10: `BAD_LENGTH` beats `NOT_CONFIGURED`. -/
theorem test_write_bad_length :
    readsFrom State.reset [poke 0x000 0x0000C802, peek 0x004, poke 0x000 0x00000302, peek 0x004] =
      [0x00050000, 0x00030000] := by decide +kernel

/-- §5 P1, §1 V3: the first digest word of "abc". -/
theorem test_sum_abc :
    readsFrom State.reset [poke 0x000 0x00000001, poke 0x100 0x00636261, poke 0x000 0x00000302, poke 0x000 0x00000003,
      peek 0x180] = [0x3fa580ba] := by decide +kernel

/-- §5 P2, §1 V4: the first digest word of the byte 0x00 under the key 00 to 1f. -/
theorem test_sum_keyed :
    readsFrom State.reset [poke 0x008 0x00002020, poke 0x040 0x03020100, poke 0x044 0x07060504, poke 0x048 0x0b0a0908,
      poke 0x04C 0x0f0e0d0c, poke 0x050 0x13121110, poke 0x054 0x17161514, poke 0x058 0x1b1a1918, poke 0x05C 0x1f1e1d1c,
      poke 0x000 0x00000001, poke 0x000 0x00000102, poke 0x000 0x00000003, peek 0x180] = [0xa493ff41] := by decide +kernel

/-- §3.7: `RESET` empties an unkeyed block and clears `DOUT`. -/
theorem test_reset_unkeyed :
    readsFrom (holdingDigest 1) [poke 0x000 0x00000004, peek 0x004, peek 0x020, peek 0x180] =
      [0x00000001, 0x00000000, 0x00000000] := by decide +kernel

/-- §3.7: `RESET` before `INIT`; a word with `LEN = 1` beside it. -/
theorem test_reset_errors :
    readsFrom State.reset [poke 0x000 0x00000004, peek 0x004, poke 0x000 0x00000104, peek 0x004] =
      [0x00030000, 0x00040000] := by decide +kernel

/-! ## Counter arithmetic (spec/95_test_vectors.md §3.5) -/

theorem test_advance_carries : advanceCounter 0xffffffffffffff80#128 = 0x10000000000000000#128 := by decide

theorem test_correct_borrows : correctCounter 0#128 128#64 = 0xffffffffffffffffffffffffffffff80#128 := by decide

theorem test_final_counter_of_nothing : finalCounter 0#128 0 = 0#128 := by decide

/-! ## The window (spec/95_test_vectors.md §3.9, §3.11) -/

theorem test_window_after_reset :
    readsFrom State.reset [peek 0x004, peek 0x008, peek 0x00C, peek 0x010, peek 0x020, peek 0x000] =
      [0x00000000, 0x00000040, 0x00000000, 0x00000080, 0x00000000, 0x00000000] := by decide +kernel

theorem test_window_writes :
    readsFrom State.reset [poke 0x008 0xFF114140, peek 0x008, poke 0x040 0x03020100, peek 0x040, poke 0x084 0x07060504,
      peek 0x084, poke 0x100 0x00636261, peek 0x100, poke 0x180 0x12345678, peek 0x180, peek 0x1C0, poke 0x004 0xFFFFFFFF,
      peek 0x004] =
      [0x00114140, 0x00000000, 0x07060504, 0x00636261, 0x00000000, 0x00000000, 0x00000000] := by decide +kernel

/-- R37: `CNT0` to `CNT3` from the low word up, at their offsets. -/
theorem test_count_words :
    [0x020#9, 0x024#9, 0x028#9, 0x02C#9].map (fun off => readReg (regAt off)
      ((holding 1).setHash { (holding 1).hash with t := 0x44444444_33333333_22222222_11111111#128 })) =
      [0x11111111#32, 0x22222222#32, 0x33333333#32, 0x44444444#32] := by decide

/-- R61: an access at byte offset 0x187 is one to the word at 0x184. -/
theorem test_offset_low_bits : regAt 0x187 = .dout 1 ∧ regAt 0x1FF = .reserved ∧ regAt 0x0FF = .reserved := by decide

/-- Hardware reset while configured, then a read (R330). -/
theorem test_hardware_reset :
    readsFrom (holdingDigest 3) [.rst true, .rst false, peek 0x004, peek 0x008, peek 0x180] =
      [0x00000000, 0x00000040, 0x00000000] := by decide +kernel

/-- The next step after reset runs a table word placed by `withFetchWord`. -/
theorem test_fetch_word :
    (match step (State.reset.withFetchWord 32 0x00000003) with
      | .next t => some t.err
      | .fault _ => none
      | .refused _ => none) = some .notConfigured := by decide +kernel

/-! ## Witnesses: command words and errors -/

theorem witness_DecodeInvertsEncode : (Instr.write 255).wellFormed = true ∧ Instr.init.wellFormed = true := by decide

theorem witness_EncodeInvertsDecode : decode 0x0000FF02#32 = .ok (.write 255) := by decide

/-- One word for each clause of the illegal encodings. -/
theorem witness_IllegalWordChangesOnlyErr :
    ((0x00000005#32 : HostWord).extractLsb' 0 8 ≠ 0x01#8 ∧ (0x00000005#32 : HostWord).extractLsb' 0 8 ≠ 0x02#8 ∧
      (0x00000005#32 : HostWord).extractLsb' 0 8 ≠ 0x03#8 ∧ (0x00000005#32 : HostWord).extractLsb' 0 8 ≠ 0x04#8) ∧
    (0x80000002#32 : HostWord).extractLsb' 16 16 ≠ 0#16 ∧
    ((0x00000104#32 : HostWord).extractLsb' 0 8 ≠ 0x02#8 ∧ (0x00000104#32 : HostWord).extractLsb' 8 8 ≠ 0#8) := by decide

theorem witness_FailedCommandChangesOnlyErr : ∃ t, runCommand 0x00000003#32 State.reset = .next t ∧ t.err ≠ .ok :=
  ⟨_, rfl, by decide⟩

/-- A command, the two levels of `rst`, and a cut-off access, each changing `ERR`. -/
theorem witness_OnlyCommandsWriteErr :
    (∃ t, step (State.reset.withProgram [poke 0x000 0x00000003]) = .next t ∧ t.err ≠ State.reset.err) ∧
    (∃ t, step (({ holding 1 with err := .badLength }).withProgram [.rst true]) = .next t ∧ t.err ≠ .badLength) ∧
    (∃ t, step ((({ holding 1 with err := .badLength }).setRst true).withProgram [.rst false]) = .next t ∧
      t.err ≠ .badLength) ∧
    (∃ t, step (({ holding 1 with err := .badLength }).withProgram [.cutOff (.read 0)]) = .next t ∧ t.err ≠ .badLength) := by
  refine ⟨⟨_, rfl, by decide⟩, ⟨_, rfl, by decide⟩, ⟨_, rfl, by decide⟩, ⟨_, rfl, ?_⟩⟩
  simp [State.respondCutOff_frame, State.setRst, State.hardwareReset, State.reset]

theorem witness_UnconfiguredCommandsFail : State.reset.hash.conf = false ∧ 128 ≤ 128 ∧ 0 ≤ 128 := by decide

/-! ## Witnesses: the port and hardware reset -/

theorem witness_StepRunsDecodedCommand :
    (State.reset.withProgram [poke 0x003 0x00008002]).port.rst = false ∧
    (State.reset.withProgram [poke 0x003 0x00008002]).port.pending = .access (.write 0x003 0x00008002) :: [] ∧
    regAt 0x003 = .cmd ∧ decode 0x00008002#32 = .ok (.write 128) ∧ (Instr.write 128).wellFormed = true ∧
    decodeTableWord 32 0x00000004 = some .reset ∧
    (State.reset.withProgram [poke 0x000 0x00010002]).port.pending = .access (.write 0x000 0x00010002) :: [] ∧
    regAt 0x000 = .cmd ∧ decode 0x00010002#32 = .error .reservedBits := by decide

/-- Every kind of event is served by some step. -/
theorem witness_StepServesOldestEvent :
    (∃ t, step ((holding 1).withProgram [peek 0x1FF, peek 0x004]) = .next t) ∧
    (∃ t, step ((holding 1).withProgram [poke 0x008 0x00000001, peek 0x004]) = .next t) ∧
    (∃ t, step ((holding 1).withProgram [.rst true, peek 0x004]) = .next t) ∧
    (∃ t, step ((holding 1).withProgram [.cutOff (.read 0x000), peek 0x004]) = .next t) :=
  ⟨⟨_, rfl⟩, ⟨_, rfl⟩, ⟨_, rfl⟩, ⟨_, rfl⟩⟩

theorem witness_PortAlwaysAnswersOutsideReset :
    ((holding 1).withProgram [poke 0x000 0xFFFFFFFF]).port.rst = false := by decide

theorem witness_QuiescentBlockKeepsItsState : (holding 128).port.pending = [] := by decide

theorem witness_AccessDuringResetIsRefused :
    ((State.reset.setRst true).withProgram [peek 0x000]).port.rst = true ∧
    ((State.reset.setRst true).withProgram [peek 0x000]).port.pending = .access (.read 0x000) :: [] ∧
    ((State.reset.setRst true).withProgram [.cutOff (.read 0x000)]).port.pending = .cutOff (.read 0x000) :: [] := by decide

/-- Asserting, deasserting, and a cut-off access, from a state that is not the reset state. -/
theorem witness_HardwareResetRestoresResetValues :
    (((holding 1).withProgram [.rst true]).port.pending = .rst true :: [] ∧ (holding 1).port.rst = false) ∧
    ((((holding 1).setRst true).withProgram [.rst false]).port.pending = .rst false :: [] ∧
      ((holding 1).setRst true).port.rst = true) ∧
    (((holding 1).withProgram [.cutOff (.write 0 1)]).port.pending = .cutOff (.write 0 1) :: [] ∧
      ((holding 1).withProgram [.cutOff (.write 0 1)]).port.rst = false) := by decide

/-! ## Witnesses: the register window -/

/-- The first and the last offset of every reserved range, and the offsets next to them, which are not reserved. -/
theorem witness_RegisterMapOfWindow :
    (∀ off ∈ [0x014#9, 0x01F#9, 0x030#9, 0x03F#9, 0x090#9, 0x0FF#9, 0x1C0#9, 0x1FF#9],
      (0x014 ≤ off.toNat ∧ off.toNat < 0x020) ∨ (0x030 ≤ off.toNat ∧ off.toNat < 0x040) ∨
        (0x090 ≤ off.toNat ∧ off.toNat < 0x100) ∨ 0x1C0 ≤ off.toNat) ∧
    (∀ off ∈ [0x013#9, 0x020#9, 0x02F#9, 0x040#9, 0x08F#9, 0x100#9, 0x1BF#9], regAt off ≠ .reserved) := by decide

/-- An unconfigured block that has the invariants, after a failed command and with `CFG` rewritten. -/
theorem witness_StatusWordFields :
    let s := { staged 0x114140#24 with err := .keyTooLarge }
    HashInv s.hash s.regs.dout ∧ s.hash.conf = false := by
  have hz : zeros 64 = Vector.replicate 64 0 := zeros_eq_replicate 64
  have hk : zeros 128 = Vector.replicate 128 0 := zeros_eq_replicate 128
  refine ⟨⟨?_, ?_, ⟨0, rfl⟩, fun _ => ⟨rfl, rfl⟩, ?_, ?_, fun _ => hk.symm, ?_⟩, rfl⟩
  · exact fun _ => ⟨rfl, rfl, rfl, rfl, rfl, hk.symm, rfl, hz.symm⟩
  · intro h; exact absurd h (by decide)
  · intro h; exact absurd h (by decide)
  · intro i _; simp [staged, State.reset, HashState.reset, State.setRegs]
  · intro i _; simp [staged, State.setRegs, HostRegs.reset]

theorem witness_OffsetLowBitsAreIgnored :
    (0x184#9).extractLsb' 2 7 = (0x187#9).extractLsb' 2 7 ∧ (0x1FC#9).extractLsb' 2 7 = (0x1FF#9).extractLsb' 2 7 := by decide

/-- One register for each clause of the readback. -/
theorem witness_RegisterWriteReadback :
    ∀ r ∈ [WindowReg.cfg, .salt 3, .din 31, .key 15, .status, .size, .blksz, .cnt 3, .dout 15, .reserved], r ≠ .cmd := by decide

/-- A read, a staging write (the last word of `DIN`), and a write to each kind of register that ignores it. -/
theorem witness_RegisterAccessLeavesTheHash :
    (holding 1).port.rst = false ∧
    ((holding 1).withProgram [peek 0x1FF]).port.pending = .access (.read 0x1FF) :: [] ∧
    ((holding 1).withProgram [poke 0x17F 7]).port.pending = .access (.write 0x17F 7) :: [] ∧ regAt 0x17F ≠ .cmd ∧
    regAt 0x1C0 = .reserved ∧ regAt 0x004 = .status ∧ regAt 0x00C = .size ∧ regAt 0x010 = .blksz ∧
    regAt 0x02F = .cnt 3 ∧ regAt 0x1BF = .dout 15 := by decide

/-- A program that writes `KEY`, issues a `SUM`-less command and an illegal word, and reads. -/
theorem witness_KeyStagingIsUnobservable :
    (∀ e ∈ [poke 0x040 7, poke 0x000 0x00000202, poke 0x000 0x00000101, peek 0x040], keepsConfiguration e = true) ∧
    ∃ t, runProgram [poke 0x040 7, poke 0x000 0x00000202, poke 0x000 0x00000101, peek 0x040] (holding 1) = .next t :=
  ⟨by decide, _, rfl⟩

/-! ## Witnesses: INIT -/

/-- The longest key and salt, with digest requests at and beyond both ends of 1 to 64; and no key and no salt. -/
theorem witness_InitSetsUpConfiguredHash :
    ∀ cfg ∈ [0x104000#24, 0x104001#24, 0x104040#24, 0x104041#24, 0x000040#24],
      ((staged cfg).regs.cfg.extractLsb' 8 8).toNat ≤ 64 ∧ ((staged cfg).regs.cfg.extractLsb' 16 8).toNat ≤ 16 := by
  intro cfg h
  fin_cases h <;> decide

theorem witness_InitRejectsLongKeyOrSalt :
    64 < ((staged 0x004140#24).regs.cfg.extractLsb' 8 8).toNat ∧
    (((staged 0x114040#24).regs.cfg.extractLsb' 8 8).toNat ≤ 64 ∧
      16 < ((staged 0x114040#24).regs.cfg.extractLsb' 16 8).toNat) := by decide

theorem witness_DigestSizeIsClamped :
    ∀ cfg ∈ [0x104000#24, 0x104001#24, 0x104040#24, 0x104041#24, 0x1040FF#24],
      ((staged cfg).regs.cfg.extractLsb' 8 8).toNat ≤ 64 ∧ ((staged cfg).regs.cfg.extractLsb' 16 8).toNat ≤ 16 := by
  intro cfg h
  fin_cases h <;> decide

theorem witness_ChainOfConfiguration : 16 ≤ 16 ∧ 0 ≤ 16 := by decide

/-- A configuration with a one-byte key and a one-byte salt, and windows that differ beyond the first byte. -/
theorem witness_InitIgnoresUnusedKeyAndSalt :
    (∀ i : Fin 64, i.val < ((staged 0x010140#24).regs.cfg.extractLsb' 8 8).toNat →
      ((Vector.replicate 64 0x5A#8).set 0 0)[i] = (staged 0x010140#24).regs.key[i]) ∧
    (∀ i : Fin 16, i.val < ((staged 0x010140#24).regs.cfg.extractLsb' 16 8).toNat →
      ((Vector.replicate 16 0x5A#8).set 0 0)[i] = (staged 0x010140#24).regs.salt[i]) ∧
    ∃ t, exec .init (staged 0x010140#24) = .next t :=
  ⟨by decide +kernel, by decide +kernel, _, rfl⟩

/-! ## Witnesses: WRITE -/

/-- The bytes just fit; the bytes are one too many; the buffer is full. -/
theorem witness_WriteAbsorbsBlockwise :
    ((holding 127).hash.conf = true ∧ 1 ≤ 128 ∧ (holding 127).hash.off.val + 1 ≤ 128) ∧
    ((holding 127).hash.conf = true ∧ 2 ≤ 128 ∧ ¬ (holding 127).hash.off.val + 2 ≤ 128) ∧
    ((holding 128).hash.conf = true ∧ 128 ≤ 128 ∧ ¬ (holding 128).hash.off.val + 128 ≤ 128) := by decide

theorem witness_WriteCountLimits : 128 < 129 ∧ (holding 128).hash.conf = true := by decide

theorem witness_WriteFrame : ∃ t, exec (.write 3) (holding 127) = .next t ∧ t.err = .ok := ⟨_, rfl, rfl⟩

theorem witness_CounterCountsDeferredBlocks :
    HashState.reset.t = 0 ∧ HashState.reset.off = 0 ∧ List.replicate 129 (0x01#8 : Byte) ≠ [] := by decide

theorem witness_WriteSplitInvariance :
    (holding 0).hash.conf = true ∧
    (∀ c ∈ [List.replicate 128 (1#8 : Byte), [], [1]], c.length ≤ 128) ∧
    (∀ d ∈ [[], List.replicate 1 (1#8 : Byte), List.replicate 128 1], d.length ≤ 128) ∧
    [List.replicate 128 (1#8 : Byte), [], [1]].flatten = [[], List.replicate 1 (1#8 : Byte), List.replicate 128 1].flatten := by
  decide +kernel

/-- The largest counter that the premise admits, with a `WRITE` that compresses and with a `SUM`. -/
theorem witness_CounterNeverDecreases :
    let s := (holding 128).setHash { (holding 128).hash with t := 0xffffffffffffffffffffffffffffff00#128 }
    s.hash.t.toNat + 128 < 2 ^ 128 ∧ (∃ t, exec (.write 1) s = .next t) ∧ (∃ t, exec .sum s = .next t) :=
  ⟨by decide, ⟨_, rfl⟩, ⟨_, rfl⟩⟩

/-- Two buffers that differ from byte 1 on, with one significant byte, and a command that reads it. -/
theorem witness_StaleBufferBytesAreInvisible :
    (∀ k : Fin 128, k.val < (holding 1).hash.off.val →
      ((Vector.replicate 128 0x5A#8).set 0 0)[k] = (holding 1).hash.buf[k]) ∧
    (∃ t, exec .sum (holding 1) = .next t) ∧ (∃ t, exec (.write 128) (holding 1) = .next t) :=
  ⟨by decide +kernel, ⟨_, rfl⟩, ⟨_, rfl⟩⟩

/-! ## Witnesses: SUM and RESET -/

theorem witness_SumOutputsFinalDigest : (holding 0).hash.conf = true ∧ (holding 128).hash.conf = true := by decide

theorem witness_SumFrame : ∃ t, exec .sum (holding 1) = .next t ∧ t.err = .ok := ⟨_, rfl, rfl⟩

theorem witness_DoutWordsAreChainHalves : (holding 3).hash.conf = true ∧ (holding 3).hash.dsize = 64#7 := by decide

theorem witness_SumDoesNotDisturbTheHash :
    (∃ t, exec .sum (holding 128) = .next t) ∧ (holding 128).hash.conf = true ∧
    (∀ c ∈ [[], List.replicate 128 (1#8 : Byte)], c.length ≤ 128) := ⟨⟨_, rfl⟩, by decide, by decide +kernel⟩

theorem witness_ResetReturnsToSnapshot :
    (holding 128).hash.conf = true ∧ (holding 128).hash.keyed = false ∧
    ((holding 128).setHash { (holding 128).hash with keyed := true }).hash.conf = true := by decide

theorem witness_InitAndResetFrame :
    (∃ t, exec .init (staged 0x104040#24) = .next t ∧ t.err = .ok) ∧ (∃ t, exec .reset (holding 128) = .next t ∧ t.err = .ok) :=
  ⟨⟨_, rfl, rfl⟩, ⟨_, rfl, rfl⟩⟩

/-- A keyed `INIT`, then data, a peek and a staging write. -/
theorem witness_ResetFidelity :
    (∃ a, exec .init (staged 0x002020#24) = .next a ∧ a.err = .ok ∧ a.port.rst = false) ∧
    (∀ e ∈ [poke 0x100 7, poke 0x000 0x00000102, poke 0x000 0x00000003, poke 0x008 0], keepsConfiguration e = true) :=
  ⟨⟨_, rfl, rfl, rfl⟩, by decide⟩

/-! ## Witnesses: rules of the whole machine -/

/-- `CONF` is set by an `INIT`, and cleared by `rst` and by a cut-off access. -/
theorem witness_ConfIsSetByInitAndClearedByReset :
    (∃ t, step (State.reset.withProgram [poke 0x000 0x00000001]) = .next t ∧ State.reset.hash.conf = false ∧
      t.hash.conf = true) ∧
    (∃ t, step ((holding 1).withProgram [.rst true]) = .next t ∧ (holding 1).hash.conf = true ∧ t.hash.conf = false) ∧
    (∃ t, step ((holding 1).withProgram [.cutOff (.read 0)]) = .next t ∧ t.hash.conf = false) := by
  refine ⟨⟨_, rfl, rfl, rfl⟩, ⟨_, rfl, rfl, rfl⟩, ⟨_, rfl, ?_⟩⟩
  simp [State.respondCutOff_frame, State.setRst, State.hardwareReset, State.reset, HashState.reset]

/-- `DSIZE` is changed by an `INIT`, by `rst` and by a cut-off access. -/
theorem witness_ConfigurationIsWrittenByInitOnly :
    (∃ t, step (State.reset.withProgram [poke 0x000 0x00000001]) = .next t ∧ t.hash.dsize ≠ State.reset.hash.dsize) ∧
    (∃ t, step ((holding 1).withProgram [.rst true]) = .next t ∧ t.hash.dsize ≠ (holding 1).hash.dsize) ∧
    (∃ t, step ((holding 1).withProgram [.cutOff (.read 0)]) = .next t ∧ t.hash.dsize ≠ (holding 1).hash.dsize) := by
  refine ⟨⟨_, rfl, by decide⟩, ⟨_, rfl, by decide⟩, ⟨_, rfl, ?_⟩⟩
  simp [State.respondCutOff_frame, State.setRst, State.hardwareReset, State.reset, HashState.reset, holding]

/-- `DOUT` is changed by an `INIT`, by a `RESET` and by `rst`; a `SUM` that changes it is `test_sum_abc`. -/
theorem witness_DoutIsStaleUntilSum :
    ∀ e ∈ [poke 0x000 0x00000001, poke 0x000 0x00000004, HostEvent.rst true],
      ∃ t, step ((holdingDigest 1).withProgram [e]) = .next t ∧ t.regs.dout ≠ (holdingDigest 1).regs.dout := by
  intro e he
  fin_cases he
  · exact ⟨_, rfl, by decide +kernel⟩
  · exact ⟨_, rfl, by decide +kernel⟩
  · exact ⟨_, rfl, by decide +kernel⟩

/-- The three commands the first part is about, and inputs that differ from byte 1 on for `WRITE 1`. -/
theorem witness_StagingIsReadAtItsCommandOnly :
    (∀ i ∈ [Instr.write 128, .sum, .reset], i ≠ .init ∧ ∃ t, exec i (holding 1) = .next t) ∧
    (∀ k : Fin 128, k.val < 1 → ((Vector.replicate 128 0x5A#8).set 0 0)[k] = (holding 1).regs.din[k]) ∧
    (∃ t, exec (.write 1) (holding 1) = .next t) := by
  refine ⟨?_, by decide +kernel, _, rfl⟩
  intro i hi
  fin_cases hi
  · exact ⟨by decide, _, rfl⟩
  · exact ⟨by decide, _, rfl⟩
  · exact ⟨by decide, _, rfl⟩

/-- A block configured with the one-byte key 0x00, 64-byte digest, with its key block in the buffer. -/
def keyedBlock : State :=
  { State.reset with
    hash := { HashState.reset with
      conf := true, h := initialChain (paramBlock 64#7 1 0 (zeros 16)), hinit := initialChain (paramBlock 64#7 1 0 (zeros 16))
      off := 128, keyed := true, dsize := 64#7 } }

/-- The invariant holds of a configured, keyed block, which has a next state; the step is a `WRITE 1` that compresses. -/
theorem witness_EveryStepKeepsInvariant :
    Inv (keyedBlock.withProgram [poke 0x000 0x00000102]) ∧
    ∃ t, step (keyedBlock.withProgram [poke 0x000 0x00000102]) = .next t := by
  refine ⟨⟨⟨?_, ?_, ?_, ?_, ?_, ?_, ?_, ?_⟩, ?_⟩, _, rfl⟩
  · intro h; exact absurd h (by decide)
  · intro _; decide
  · exact ⟨0, rfl⟩
  · intro h; exact absurd h (by decide)
  · intro _; exact ⟨1, 0, zeros 16, by decide, by decide, by decide, rfl, fun i _ => by
      simp [keyedBlock, State.reset, HashState.reset, State.withProgram, State.setPending]⟩
  · intro i _
    have := i.isLt
    simp [keyedBlock, State.reset, HashState.reset, State.withProgram, State.setPending]
  · intro h; exact absurd h (by decide)
  · intro i h
    have h64 : 64 ≤ i.val := h
    have := i.isLt
    omega
  · intro h; exact absurd h (by decide)

/-! ## Witnesses: the compression function and the whole hash -/

theorem witness_StepsOfOneGroupCommute :
    [(3 : Fin 8), 1, 0, 2].Perm [0, 1, 2, 3] ∧ [(7 : Fin 8), 5, 4, 6].Perm [4, 5, 6, 7] := by decide

theorem witness_RotationsOfTheMixingStep : (1 ≤ 1 ∧ 1 ≤ 63) ∧ (1 ≤ 63 ∧ 63 ≤ 63) := by decide

theorem witness_SigmaRowsArePermutations : (0 : Fin 10) ≠ 9 := by decide

/-- The longest key and salt, an out-of-range digest request, and three chunks, one of them empty and one full. -/
theorem witness_DigestIsBlockwiseOverModelF :
    ((staged 0x104041#24).regs.cfg.extractLsb' 8 8).toNat ≤ 64 ∧
    ((staged 0x104041#24).regs.cfg.extractLsb' 16 8).toNat ≤ 16 ∧
    (∀ c ∈ [[], List.replicate 128 (1#8 : Byte), [2]], c.length ≤ 128) := by decide +kernel

/-- The longest key, with digest requests at both ends of 0 to 255 and of 1 to 64. -/
theorem witness_MacProgramReadsBlockwiseDigest :
    (holding 77).port.rst = false ∧ (List.replicate 64 (1#8 : Byte)).length ≤ 64 ∧ (∀ ds ∈ [0, 1, 64, 65, 255], ds ≤ 255) ∧
    (1 ≤ 1 ∧ 1 ≤ 64) ∧ (1 ≤ 64 ∧ 64 ≤ 64) := by decide

end Sys2Proof.Tests
end

section
/-! PROOFS. The rotations of the mixing step, the counter arithmetic, and the digest written block by block
(spec/00_scope.md R2, R3, R9). -/

namespace Sys2Proof.Machine

/-! ## Rotation (R9) -/

theorem rotr64_eq_rotateRight (x : Word) {n : Nat} (h : n < 64) : rotr64 x n = x.rotateRight n := by
  rw [rotr64, BitVec.rotateRight_def, Nat.mod_eq_of_lt h]

theorem rotr64_63_eq_rotateLeft (x : Word) : rotr64 x 63 = x.rotateLeft 1 := by
  rw [rotr64, BitVec.rotateLeft_def, BitVec.or_comm]

/-- Settles O54. -/
theorem rotationsOfTheMixingStep : Obligations.RotationsOfTheMixingStep :=
  ⟨fun x _ _ h63 => rotr64_eq_rotateRight x (Nat.lt_succ_of_le h63), rotr64_63_eq_rotateLeft⟩

/-! ## The counter as one 128-bit number (R201, R231, R232, R234) -/

@[simp] theorem toNat_lowWord (t : BitVec 128) : (lowWord t).toNat = t.toNat % 2 ^ 64 := by
  rw [lowWord, BitVec.extractLsb'_toNat, Nat.shiftRight_zero]

@[simp] theorem toNat_highWord (t : BitVec 128) : (highWord t).toNat = t.toNat / 2 ^ 64 := by
  have ht := t.isLt
  rw [highWord, BitVec.extractLsb'_toNat, Nat.shiftRight_eq_div_pow]
  omega

theorem toNat_append_words (a b : Word) : (a ++ b).toNat = a.toNat * 2 ^ 64 + b.toNat := by
  rw [BitVec.toNat_append, ← Nat.shiftLeft_add_eq_or_of_lt b.isLt, Nat.shiftLeft_eq]

/-- The carry out of the low word makes the two-word advance an addition modulo 2^128 (R201). -/
theorem advanceCounter_eq_add (t : BitVec 128) : advanceCounter t = t + 128#128 := by
  have ht := t.isLt
  apply BitVec.eq_of_toNat_eq
  simp only [advanceCounter, BitVec.lt_def, toNat_append_words, BitVec.ofNat_eq_ofNat, BitVec.toNat_add, BitVec.toNat_ofNat,
    toNat_lowWord]
  split <;> simp only [BitVec.toNat_add, BitVec.toNat_ofNat, toNat_highWord] <;> omega

/-- The borrow from the high word makes the two-word correction a subtraction modulo 2^128 (R232). -/
theorem correctCounter_eq_sub (t : BitVec 128) (diff : Word) : correctCounter t diff = t - diff.setWidth 128 := by
  have ht := t.isLt
  have hd := diff.isLt
  apply BitVec.eq_of_toNat_eq
  simp only [correctCounter, BitVec.lt_def, toNat_append_words, BitVec.toNat_sub,
    BitVec.ofNat_eq_ofNat, BitVec.toNat_setWidth, toNat_lowWord]
  split <;> simp only [BitVec.toNat_sub, BitVec.toNat_ofNat, toNat_highWord] <;> omega

/-- Correcting by `128 - OFF` and advancing by 128 adds `OFF` (R235). -/
theorem finalCounter_eq_add (t : BitVec 128) (off : Fin 129) :
    finalCounter t off = t + BitVec.ofNat 128 off.val := by
  have ht := t.isLt
  have ho := off.isLt
  rw [finalCounter, advanceCounter_eq_add, correctCounter_eq_sub]
  apply BitVec.eq_of_toNat_eq
  simp only [BitVec.toNat_add, BitVec.toNat_sub, BitVec.toNat_setWidth, BitVec.toNat_ofNat]
  omega

/-! ## The reference over a growing stream -/

/-- The chain values after the first `k` blocks of a stream, all compressed as non-final blocks (R200). -/
def nonFinalChain (h : Vector Word 8) (stream : List Byte) (k : Nat) : Vector Word 8 :=
  (List.range k).foldl (fun h i => compressF h (BitVec.ofNat 128 (128 * (i + 1))) (streamBlock stream i) false) h

theorem referenceChain_eq (h : Vector Word 8) (stream : List Byte) :
    referenceChain h stream =
      compressF (nonFinalChain h stream (nonFinalBlocks stream.length)) (BitVec.ofNat 128 stream.length)
        (streamBlock stream (nonFinalBlocks stream.length)) true := rfl

theorem nonFinalChain_succ (h : Vector Word 8) (stream : List Byte) (k : Nat) :
    nonFinalChain h stream (k + 1) =
      compressF (nonFinalChain h stream k) (BitVec.ofNat 128 (128 * (k + 1))) (streamBlock stream k) false := by
  rw [nonFinalChain, List.range_succ, List.foldl_append]
  rfl

/-- A block that lies within the stream does not change when bytes follow. -/
theorem streamBlock_append (p q : List Byte) {i : Nat} (h : 128 * (i + 1) ≤ p.length) :
    streamBlock (p ++ q) i = streamBlock p i := by
  ext k hk : 1
  rw [getElem_streamBlock, getElem_streamBlock, List.getElem?_append_left (by omega)]

theorem nonFinalChain_append (h : Vector Word 8) (p q : List Byte) {k : Nat} (hk : 128 * k ≤ p.length) :
    nonFinalChain h (p ++ q) k = nonFinalChain h p k := by
  apply List.foldl_ext
  intro c i hi
  have hik : i < k := List.mem_range.mp hi
  rw [streamBlock_append p q (by omega)]

/-! ## What a hash state has absorbed -/

/-- `x` is what an empty hash at the chain values `h` becomes by absorbing `stream`: the first `k` blocks are compressed as
non-final blocks, and `BUF[0..OFF)` holds the rest (R202, R203). -/
structure Absorbed (h : Vector Word 8) (stream : List Byte) (k : Nat) (x : HashState) : Prop where
  chain : x.h = nonFinalChain h stream k
  counter : x.t = BitVec.ofNat 128 (128 * k)
  count : 128 * k + x.off.val = stream.length
  buffer : finalBlock x.buf x.off = streamBlock stream k

/-- A full buffer gets no padding. -/
theorem finalBlock_full (buf : Vector Byte 128) : finalBlock buf 128 = buf := by
  ext k hk : 1
  rw [getElem_finalBlock]
  exact if_pos hk

/-- An empty buffer is the block that begins where the stream ends. -/
theorem finalBlock_empty (buf : Vector Byte 128) {p : List Byte} {k : Nat} (h : p.length ≤ 128 * k) :
    finalBlock buf 0 = streamBlock p k := by
  ext i hi : 1
  rw [getElem_finalBlock, getElem_streamBlock, List.getElem?_eq_none (by omega)]
  exact if_neg (Nat.not_lt_zero i)

/-- A byte stored at `OFF` is the next byte of the last block. -/
theorem finalBlock_store {buf : Vector Byte 128} {off off' : Fin 129} {p : List Byte} {k : Nat} (b : Byte)
    (hbuf : finalBlock buf off = streamBlock p k) (hcount : 128 * k + off.val = p.length)
    (hoff' : off'.val = off.val + 1) :
    finalBlock (buf.setIfInBounds off.val b) off' = streamBlock (p ++ [b]) k := by
  ext i hi : 1
  rw [getElem_finalBlock, getElem_streamBlock, hoff', Vector.getElem_setIfInBounds hi]
  rcases Nat.lt_trichotomy i off.val with h | h | h
  · have hi' := getElem_finalBlock buf off i hi
    rw [if_pos h, hbuf, getElem_streamBlock] at hi'
    rw [if_pos (by omega), if_neg (by omega), List.getElem?_append_left (by omega), hi']
  · rw [if_pos (by omega), if_pos h.symm, h, hcount, List.getElem?_concat_length, Option.getD_some]
  · rw [if_neg (by omega), List.getElem?_eq_none (by rw [List.length_append, List.length_singleton]; omega),
      Option.getD_none]

theorem absorbed_nil {x : HashState} (ht : x.t = 0) (ho : x.off = 0) : Absorbed x.h [] 0 x where
  chain := rfl
  counter := ht
  count := by rw [ho]; rfl
  buffer := by
    rw [ho]
    exact finalBlock_empty _ (Nat.le_refl 0)

section
variable {h : Vector Word 8} {p : List Byte} {k : Nat} {x : HashState}

/-- `CompressBlock` on a full buffer completes block `k` (R200). -/
theorem Absorbed.compressBlock (hx : Absorbed h p k x) (hfull : x.off = 128) :
    Absorbed h p (k + 1) x.compressBlock := by
  obtain ⟨hchain, hcounter, hcount, hbuffer⟩ := hx
  rw [hfull] at hcount hbuffer
  have hlen : 128 * (k + 1) = p.length := hcount
  have ht : advanceCounter x.t = BitVec.ofNat 128 (128 * (k + 1)) := by
    rw [advanceCounter_eq_add, hcounter, ← BitVec.ofNat_add, Nat.mul_succ]
  exact
    { chain := by
        rw [nonFinalChain_succ, HashState.compressBlock_h, ht, ← hchain, ← hbuffer, finalBlock_full]
      counter := ht
      count := hlen
      buffer := finalBlock_empty _ (Nat.le_of_eq hlen.symm) }

/-- With room in the buffer a byte joins the last block (R202). -/
theorem Absorbed.absorbByte_of_room (hx : Absorbed h p k x) (b : Byte) (hroom : x.off ≠ 128) :
    Absorbed h (p ++ [b]) k (x.absorbByte b) := by
  obtain ⟨hchain, hcounter, hcount, hbuffer⟩ := hx
  have hoff : (x.off + 1).val = x.off.val + 1 := by
    have hne : x.off.val ≠ 128 := fun h => hroom (Fin.ext h)
    rw [Fin.val_add, Fin.val_one]
    omega
  rw [x.absorbByte_of_room b hroom]
  exact
    { chain := hchain.trans (nonFinalChain_append h p [b] (by omega)).symm
      counter := hcounter
      count := by rw [hoff, List.length_append, List.length_singleton, ← hcount, Nat.add_assoc]
      buffer := finalBlock_store b hbuffer hcount hoff }

/-- With a byte in the buffer, `k` is the number of non-final blocks (R203). -/
theorem Absorbed.eq_nonFinalBlocks (hx : Absorbed h p k x) (ho : x.off ≠ 0) : k = nonFinalBlocks p.length := by
  have hne : x.off.val ≠ 0 := fun h => ho (Fin.ext h)
  rw [nonFinalBlocks, ← hx.count]
  omega

/-- One iteration of `Absorb`: a full buffer is compressed, then the byte joins the last block (R202). -/
theorem Absorbed.absorbByte (hx : Absorbed h p k x) (b : Byte) :
    Absorbed h (p ++ [b]) (nonFinalBlocks (p ++ [b]).length) (x.absorbByte b) := by
  have key : ∃ j, Absorbed h (p ++ [b]) j (x.absorbByte b) := by
    by_cases hfull : x.off = 128
    · have hstep : x.absorbByte b = x.compressBlock.absorbByte b := by
        rw [x.absorbByte_of_full b hfull, x.compressBlock.absorbByte_of_room b (by simp)]
        rfl
      rw [hstep]
      exact ⟨k + 1, (hx.compressBlock hfull).absorbByte_of_room b (by simp)⟩
    · exact ⟨k, hx.absorbByte_of_room b hfull⟩
  obtain ⟨j, hj⟩ := key
  rwa [← hj.eq_nonFinalBlocks (x.absorbByte_off_ne_zero b)]

/-- The snapshot is no part of what has been absorbed (R138). -/
theorem Absorbed.takeSnapshot (hx : Absorbed h p k x) : Absorbed h p k x.takeSnapshot :=
  ⟨hx.chain, hx.counter, hx.count, hx.buffer⟩

theorem Absorbed.absorb (hx : Absorbed h p (nonFinalBlocks p.length) x) (q : List Byte) :
    Absorbed h (p ++ q) (nonFinalBlocks (p ++ q).length) (x.absorb q) := by
  induction q generalizing p x with
  | nil => rwa [List.append_nil, HashState.absorb_nil]
  | cons b q ih =>
    rw [HashState.absorb_cons, List.append_cons]
    exact ih (hx.absorbByte b)

/-- The final compression reads the last block, padded with zeros, and the total length (R233, R235). -/
theorem Absorbed.finalChain_eq (hx : Absorbed h p (nonFinalBlocks p.length) x) :
    finalChain x = referenceChain h p := by
  have ht : finalCounter x.t x.off = BitVec.ofNat 128 p.length := by
    rw [finalCounter_eq_add, hx.counter, ← BitVec.ofNat_add, hx.count]
  rw [finalChain, referenceChain_eq, ht, hx.buffer, hx.chain]

end

/-! ## The commands of a whole hash -/

/-- The bytes `INIT` absorbs before the message: the key block if there is a key (R137). -/
def keyStream (r : HostRegs) : List Byte :=
  if 0 < (keyLength r).toNat then (keyBlock (keyLength r).toNat r.key).toList else []

theorem configure_absorbKey (r : HostRegs) (x : HashState) :
    (x.configure r).absorbKey = (x.configure r).absorb (keyStream r) := by
  rw [HashState.absorbKey, HashState.configure_keyed, HashState.configure_kb, keyStream]
  by_cases h : 0 < (keyLength r).toNat
  · rw [if_pos h, if_pos (decide_eq_true h)]
  · rw [if_neg h, if_neg (mt of_decide_eq_true h), HashState.absorb_nil]

/-- After `INIT` on a legal configuration the hash has absorbed the key stream, from the configured chain values
(R137, R140). -/
theorem execInit_of_legal {s : State} (hk : (keyLength s.regs).toNat ≤ 64) (hs : (saltLength s.regs).toNat ≤ 16) :
    ∃ a, execInit s = .next a ∧ a.hash.conf = true ∧ a.hash.dsize = clampDigestSize (digestRequest s.regs) ∧
      Absorbed (configuredChain s.regs) (keyStream s.regs) (nonFinalBlocks (keyStream s.regs).length) a.hash := by
  have hlegal : configError s.regs = none := by
    rw [configError, if_neg (Nat.not_lt.mpr hk), if_neg (Nat.not_lt.mpr hs)]
  have hempty : Absorbed (configuredChain s.regs) [] 0 (s.hash.configure s.regs) :=
    absorbed_nil (HashState.configure_t s.regs s.hash) (HashState.configure_off s.regs s.hash)
  have hhash := (hempty.absorb (keyStream s.regs)).takeSnapshot
  rw [execInit, hlegal, configure_absorbKey]
  exact ⟨_, rfl, HashState.absorb_conf _ _, HashState.absorb_dsize _ _, hhash⟩

/-- `WRITE` of a chunk's length reads back the chunk the host has just stored (R204). -/
theorem inputBytes_loadInput {c : List Byte} (s : State) (h : c.length ≤ 128) :
    inputBytes c.length (s.loadInput c).regs = c := by
  rw [inputBytes, State.loadInput_regs_din]
  apply List.ext_getElem
  · rw [List.length_take, Vector.length_toList, Nat.min_eq_left h]
  · intro i _ hi
    rw [List.getElem_take, Vector.getElem_toList, getElem_overwrite, List.getElem?_eq_getElem hi, Option.getD_some]

/-- On a configured state, writing chunks absorbs their concatenation (R204, R205). -/
theorem writeChunks_absorbs (cs : List (List Byte)) {s : State} (hconf : s.hash.conf = true)
    (hlen : ∀ c ∈ cs, c.length ≤ 128) :
    ∃ t, writeChunks cs s = .next t ∧ t.hash = s.hash.absorb cs.flatten := by
  induction cs generalizing s with
  | nil => exact ⟨s, rfl, rfl⟩
  | cons c cs ih =>
    have hc : c.length ≤ 128 := hlen c List.mem_cons_self
    have hwrite : exec (.write c.length) (s.loadInput c) =
        .next ((s.loadInput c).setHash (s.hash.absorb c)).completeOk := by
      rw [exec, execWrite, if_neg (Nat.not_lt.mpr hc), State.whenConfigured_of_configured _ (s.loadInput c) hconf,
        inputBytes_loadInput s hc, State.loadInput_hash]
    obtain ⟨t, ht, hhash⟩ := ih (s := ((s.loadInput c).setHash (s.hash.absorb c)).completeOk)
      ((s.hash.absorb_conf c).trans hconf) fun d hd => hlen d (List.mem_cons_of_mem c hd)
    refine ⟨t, ?_, ?_⟩
    · rw [writeChunks, hwrite]
      exact ht
    · rw [hhash, List.flatten_cons, HashState.absorb_append]
      rfl

/-! ## The reference digest of a configuration -/

/-- The first `m` bytes of a window, put back into an empty window, are the same bytes. -/
theorem byteAt_tabulate_take {n m i : Nat} (win : Vector Byte n) (hi : i < m) :
    byteAt (tabulate fun j : Fin n => (win.toList.take m)[j.val]?.getD 0) i = byteAt win i := by
  by_cases hn : i < n
  · rw [byteAt_of_lt _ hn, getElem_tabulate, List.getElem?_take, if_pos hi, byteAt, Vector.getElem?_toList]
  · rw [byteAt_of_ge _ (Nat.not_lt.mp hn), byteAt_of_ge _ (Nat.not_lt.mp hn)]

/-- The key block reads the key bytes below the key length only (R135). -/
theorem keyBlock_congr {kl : Nat} {a b : Vector Byte 64} (h : ∀ i, i < kl → byteAt a i = byteAt b i) :
    keyBlock kl a = keyBlock kl b := by
  ext i hi : 1
  rw [getElem_keyBlock, getElem_keyBlock]
  split
  · exact h i ‹_›
  · rfl

/-- The parameter block reads the salt bytes below the salt length only (R133). -/
theorem paramBlock_congr {sl : Nat} {a b : Vector Byte 16} (ds : BitVec 7) (kl : Byte)
    (h : ∀ i, i < sl → byteAt a i = byteAt b i) : paramBlock ds kl sl a = paramBlock ds kl sl b := by
  ext i hi : 1
  rw [getElem_paramBlock, getElem_paramBlock]
  by_cases hin : 32 ≤ i ∧ i < 32 + sl
  · rw [if_pos hin, if_pos hin, h (i - 32) (by omega)]
  · rw [if_neg hin, if_neg hin]

/-- The reference digest under the configured key and salt hashes the key stream and the message from the configured chain
values. -/
theorem referenceDigest_of_config {r : HostRegs} (hk : (keyLength r).toNat ≤ 64) (hs : (saltLength r).toNat ≤ 16)
    (msg : List Byte) :
    referenceDigest (clampDigestSize (digestRequest r)) (r.key.toList.take (keyLength r).toNat)
        (r.salt.toList.take (saltLength r).toNat) msg =
      serialize (referenceChain (configuredChain r) (keyStream r ++ msg)) := by
  have hkl : (r.key.toList.take (keyLength r).toNat).length = (keyLength r).toNat := by
    rw [List.length_take, Vector.length_toList, Nat.min_eq_left hk]
  have hsl : (r.salt.toList.take (saltLength r).toNat).length = (saltLength r).toNat := by
    rw [List.length_take, Vector.length_toList, Nat.min_eq_left hs]
  rw [referenceDigest]
  simp only [hkl, hsl, BitVec.ofNat_toNat, BitVec.setWidth_eq]
  rw [keyBlock_congr fun i => byteAt_tabulate_take r.key, paramBlock_congr _ _ fun i => byteAt_tabulate_take r.salt,
    keyStream, configuredChain]
  by_cases h0 : (keyLength r).toNat = 0
  · rw [if_pos h0, if_neg (by omega), List.nil_append]
  · rw [if_neg h0, if_pos (by omega)]

/-- Settles O56: `INIT` starts from the configured chain values and the key stream, the chunks append their bytes, and `SUM`
finishes what has been absorbed as the reference does. -/
theorem digestIsBlockwiseOverModelF : Obligations.DigestIsBlockwiseOverModelF := by
  intro s cs kl sl ds hk hs hcs
  obtain ⟨a, hinit, hconf, hdsize, habsorbed⟩ := execInit_of_legal (s := s) hk hs
  obtain ⟨b, hwrite, hhash⟩ := writeChunks_absorbs cs hconf hcs
  have hbconf : b.hash.conf = true := by rw [hhash, HashState.absorb_conf, hconf]
  have hbdsize : b.hash.dsize = ds := by rw [hhash, HashState.absorb_dsize, hdsize]; rfl
  have hchain : finalChain b.hash = referenceChain (configuredChain s.regs) (keyStream s.regs ++ cs.flatten) := by
    rw [hhash]
    exact (habsorbed.absorb cs.flatten).finalChain_eq
  have hsum : exec .sum b = .next (b.setDigest (digestWindow b.hash.dsize (finalChain b.hash))).completeOk := by
    rw [exec, execSum, State.whenConfigured_of_configured _ _ hbconf]
  have href : referenceDigest ds (s.regs.key.toList.take kl) (s.regs.salt.toList.take sl) cs.flatten =
      serialize (referenceChain (configuredChain s.regs) (keyStream s.regs ++ cs.flatten)) :=
    referenceDigest_of_config hk hs cs.flatten
  refine ⟨a, b, _, hinit, hwrite, hsum, fun i => ?_⟩
  rw [State.completeOk_regs, State.setDigest_regs_dout, hbdsize, hchain, href]
  exact getElem_digestWindow _ _ i.val i.isLt

end Sys2Proof.Machine
end

section
/-! PROOFS. What each step leaves of the registers, the invariant of the machine, and what depends on the staging windows
(spec/10_state.md). -/

namespace Sys2Proof.Machine

/-! ## What a command and a step can do -/

/-- What one command can do: report an error, or succeed in the one way of its kind. -/
theorem exec_cases {i : Instr} {s t : State} (h : exec i s = .next t) :
    (∃ c, c ≠ .ok ∧ t = s.raiseCmdError c) ∨
    (i = .init ∧ configError s.regs = none ∧
      t = ((s.setHash (s.hash.configure s.regs).absorbKey.takeSnapshot).setDigest (zeros 64)).completeOk) ∨
    (∃ n, i = .write n ∧ n ≤ 128 ∧ s.hash.conf = true ∧
      t = (s.setHash (s.hash.absorb (inputBytes n s.regs))).completeOk) ∨
    (i = .sum ∧ s.hash.conf = true ∧
      t = (s.setDigest (digestWindow s.hash.dsize (finalChain s.hash))).completeOk) ∨
    (i = .reset ∧ s.hash.conf = true ∧
      t = ((s.setHash (s.hash.start s.hash.hinit).absorbKey).setDigest (zeros 64)).completeOk) := by
  have result {v : State} (hv : exec i s = .next v) : t = v := Host.Outcome.next.inj (h.symm.trans hv)
  cases i with
  | init =>
    rcases execInit_cases s with ⟨c, -, hc, hv⟩ | ⟨hlegal, hv⟩
    · exact .inl ⟨c, hc, result hv⟩
    · exact .inr (.inl ⟨rfl, hlegal, result hv⟩)
  | write n =>
    rcases execWrite_cases n s with ⟨-, hv⟩ | ⟨-, -, hv⟩ | ⟨hn, hconf, hv⟩
    · exact .inl ⟨_, by decide, result hv⟩
    · exact .inl ⟨_, by decide, result hv⟩
    · exact .inr (.inr (.inl ⟨n, rfl, hn, hconf, result hv⟩))
  | sum =>
    rcases execSum_cases s with ⟨-, hv⟩ | ⟨hconf, hv⟩
    · exact .inl ⟨_, by decide, result hv⟩
    · exact .inr (.inr (.inr (.inl ⟨rfl, hconf, result hv⟩)))
  | reset =>
    rcases execReset_cases s with ⟨-, hv⟩ | ⟨hconf, hv⟩
    · exact .inl ⟨_, by decide, result hv⟩
    · exact .inr (.inr (.inr (.inr ⟨rfl, hconf, result hv⟩)))

theorem State.atReset_of_registers {s : State} (hhash : s.hash = HashState.reset) (herr : s.err = .ok)
    (hregs : s.regs = HostRegs.reset) : s.AtReset := by
  cases s
  subst hhash herr hregs
  rfl

/-- The answer to a cut-off transaction leaves a block in reset at its reset values (R331). -/
theorem atReset_cutOff (x : Transaction) (s : State) : ((s.hardwareReset.respondCutOff x).setRst true).AtReset := by
  obtain ⟨hhash, herr, hregs, -, -⟩ := State.respondCutOff_frame x s.hardwareReset
  exact State.atReset_of_registers hhash herr hregs

/-- What one step does to the registers behind the port: it leaves the hash state and `DOUT`, runs one command, or resets the
block. -/
theorem step_registers {s t : State} (h : step s = .next t) :
    (t.hash = s.hash ∧ t.regs.dout = s.regs.dout ∧ (t = s ∨ t.port.rst = false)) ∨
    (∃ off w rest i u, s.port.pending = .access (.write off w) :: rest ∧ regAt off = .cmd ∧ decode w = .ok i ∧
      exec i (s.setPending rest) = .next u ∧ t.hash = u.hash ∧ t.regs = u.regs ∧ t.port.rst = false) ∨
    (((∃ level rest, s.port.pending = .rst level :: rest) ∨ (∃ x rest, s.port.pending = .cutOff x :: rest)) ∧
      t.AtReset) := by
  rcases step_cases h with ⟨-, rfl⟩ | ⟨e, rest, hp, he⟩
  · exact .inl ⟨rfl, rfl, .inl rfl⟩
  · rcases serveEvent_cases he with ⟨off, rfl, hr, rfl⟩ | ⟨off, w, rfl, hr, -, rfl⟩ |
      ⟨off, w, i, u, rfl, hr, hcmd, hw, hu, rfl⟩ | ⟨off, w, x, rfl, hr, -, -, rfl⟩ | ⟨level, rfl, -, rfl⟩ |
      ⟨rfl, hr, rfl⟩ | ⟨x, rfl, -, rfl⟩
    · exact .inl ⟨rfl, rfl, .inr hr⟩
    · exact .inl ⟨writeReg_hash _ _ _, writeReg_dout _ _ _, .inr (by simpa using hr)⟩
    · exact .inr (.inl ⟨off, w, rest, i, u, hp, hcmd, hw, hu, rfl, rfl, by simpa [exec_port hu] using hr⟩)
    · exact .inl ⟨rfl, rfl, .inr hr⟩
    · exact .inr (.inr ⟨.inl ⟨level, rest, hp⟩, rfl⟩)
    · exact .inl ⟨rfl, rfl, .inr hr⟩
    · exact .inr (.inr ⟨.inr ⟨x, rest, hp⟩, atReset_cutOff x _⟩)

/-! ## The configuration of the hash (R22, R24, R28 to R30) -/

/-- Agreement on `CONF` and on what `INIT` configures: `HINIT`, `KEYED`, `KB` and `DSIZE`. -/
def SameConfiguration (y x : HashState) : Prop :=
  y.conf = x.conf ∧ y.hinit = x.hinit ∧ y.keyed = x.keyed ∧ y.kb = x.kb ∧ y.dsize = x.dsize

theorem SameConfiguration.refl (x : HashState) : SameConfiguration x x := ⟨rfl, rfl, rfl, rfl, rfl⟩

theorem sameConfiguration_absorbKey (x : HashState) : SameConfiguration x.absorbKey x := by
  unfold HashState.absorbKey
  split
  · exact HashState.absorb_frame _ x
  · exact .refl x

/-- `RESET` restarts the hash within its configuration (R260). -/
theorem sameConfiguration_restart (h : Vector Word 8) (x : HashState) :
    SameConfiguration (x.start h).absorbKey x :=
  sameConfiguration_absorbKey (x.start h)

theorem exec_sameConfiguration {i : Instr} {s t : State} (hi : i ≠ .init) (h : exec i s = .next t) :
    SameConfiguration t.hash s.hash := by
  rcases exec_cases h with ⟨c, -, rfl⟩ | ⟨rfl, -, -⟩ | ⟨n, -, -, -, rfl⟩ | ⟨-, -, rfl⟩ | ⟨-, -, rfl⟩
  · exact .refl _
  · exact absurd rfl hi
  · exact HashState.absorb_frame _ _
  · exact .refl _
  · exact sameConfiguration_restart _ _

theorem exec_conf {i : Instr} {s t : State} (h : exec i s = .next t) (hs : s.hash.conf = true) :
    t.hash.conf = true := by
  by_cases hi : i = .init
  · subst hi
    rcases exec_cases h with ⟨c, -, rfl⟩ | ⟨-, -, rfl⟩ | ⟨n, hn, -⟩ | ⟨hn, -⟩ | ⟨hn, -⟩
    · exact hs
    · exact (sameConfiguration_absorbKey (s.hash.configure s.regs)).1
    all_goals cases hn
  · exact (exec_sameConfiguration hi h).1.trans hs

/-- Settles O47: a command other than `INIT` keeps `CONF`, no command clears it, and hardware reset never sets it. -/
theorem confIsSetByInitAndClearedByReset : Obligations.ConfIsSetByInitAndClearedByReset := by
  intro s t h
  rcases step_registers h with ⟨hhash, -, -⟩ | ⟨off, w, rest, i, u, hp, hcmd, hw, hu, hhash, -, -⟩ | ⟨hreset, ht⟩
  · rw [hhash]
    exact ⟨fun h0 h1 => absurd (h0.symm.trans h1) (by decide), fun h1 h0 => absurd (h0.symm.trans h1) (by decide)⟩
  · rw [hhash]
    refine ⟨fun h0 h1 => ⟨off, w, rest, hp, hcmd, ?_⟩, fun h1 h0 => ?_⟩
    · by_cases hi : i = .init
      · rw [hw, hi]
      · obtain ⟨hconf, -⟩ := exec_sameConfiguration hi hu
        exact absurd (h0.symm.trans (hconf.symm.trans h1)) (by decide)
    · exact absurd (h0.symm.trans (exec_conf hu h1)) (by decide)
  · have hconf : t.hash.conf = false := by rw [ht]; rfl
    exact ⟨fun _ h1 => absurd (hconf.symm.trans h1) (by decide), fun _ _ => hreset⟩

/-- Settles O48: a command other than `INIT` keeps the whole configuration. -/
theorem configurationIsWrittenByInitOnly : Obligations.ConfigurationIsWrittenByInitOnly := by
  intro s t h hne
  rcases step_registers h with ⟨hhash, -, -⟩ | ⟨off, w, rest, i, u, hp, hcmd, hw, hu, hhash, -, -⟩ | ⟨hreset, -⟩
  · rw [hhash] at hne
    simp at hne
  · rw [hhash] at hne
    by_cases hi : i = .init
    · exact .inl ⟨off, w, rest, hp, hcmd, by rw [hw, hi]⟩
    · obtain ⟨-, hhinit, hkeyed, hkb, hdsize⟩ := exec_sameConfiguration hi hu
      simp [hhinit, hkeyed, hkb, hdsize] at hne
  · exact .inr hreset

/-! ## The digest window (R41) -/

theorem exec_write_dout {n : Nat} {s t : State} (h : exec (.write n) s = .next t) : t.regs.dout = s.regs.dout := by
  rcases exec_cases h with ⟨c, -, rfl⟩ | ⟨hi, -⟩ | ⟨m, -, -, -, rfl⟩ | ⟨hi, -⟩ | ⟨hi, -⟩
  · rfl
  · cases hi
  · rfl
  · cases hi
  · cases hi

/-- Settles O49: of the commands, only `WRITE` is not in the list, and it keeps `DOUT`. -/
theorem doutIsStaleUntilSum : Obligations.DoutIsStaleUntilSum := by
  intro s t h hne
  rcases step_registers h with ⟨-, hdout, -⟩ | ⟨off, w, rest, i, u, hp, hcmd, hw, hu, -, hregs, -⟩ | ⟨hreset, -⟩
  · exact absurd hdout hne
  · refine .inl ⟨off, w, rest, hp, hcmd, ?_⟩
    cases i with
    | init => exact .inr (.inl hw)
    | write n => exact absurd (by rw [hregs, exec_write_dout hu]; rfl) hne
    | sum => exact .inl hw
    | reset => exact .inr (.inr hw)
  · exact .inr hreset

/-! ## The invariant (R46, R29) -/

/-- A hash state whose configuration is a legal one: R46(b), R46(g) and R29. -/
structure Configured (x : HashState) : Prop where
  conf : x.conf = true
  digestSize : 1 ≤ x.dsize.toNat ∧ x.dsize.toNat ≤ 64
  origin : ∃ (kl : Byte) (sl : Nat) (salt : Vector Byte 16), kl.toNat ≤ 64 ∧ sl ≤ 16 ∧
    x.keyed = decide (1 ≤ kl.toNat) ∧ x.hinit = initialChain (paramBlock x.dsize kl sl salt) ∧
    ∀ i : Fin 128, kl.toNat ≤ i.val → x.kb[i] = 0

theorem Configured.congr {x y : HashState} (hx : Configured x) (h : SameConfiguration y x) : Configured y := by
  obtain ⟨hconf, hhinit, hkeyed, hkb, hdsize⟩ := h
  exact
    { conf := hconf.trans hx.conf
      digestSize := by rw [hdsize]; exact hx.digestSize
      origin := by rw [hhinit, hkeyed, hkb, hdsize]; exact hx.origin }

theorem HashInv.configured {x : HashState} {dout : Vector Byte 64} (hx : HashInv x dout) (hc : x.conf = true) :
    Configured x :=
  ⟨hc, hx.digestSize hc, hx.configuration hc⟩

/-- On a configured state, what is left of the invariant speaks of `T`, `OFF` and `DOUT`: the key block's zeros follow from the
key length. -/
theorem Configured.hashInv {x : HashState} {dout : Vector Byte 64} (hx : Configured x) (haligned : 128 ∣ x.t.toNat)
    (hempty : x.off = 0 → x.t = 0 ∧ x.keyed = false) (htail : ∀ i : Fin 64, x.dsize.toNat ≤ i.val → dout[i] = 0) :
    HashInv x dout := by
  obtain ⟨hconf, hdsize, kl, sl, salt, hkl, hsl, hkeyed, hhinit, hkb⟩ := hx
  exact
    { unconfigured := fun h => absurd (hconf.symm.trans h) (by decide)
      digestSize := fun _ => hdsize
      counterAligned := haligned
      emptyBuffer := hempty
      configuration := fun _ => ⟨kl, sl, salt, hkl, hsl, hkeyed, hhinit, hkb⟩
      keyBlockTail := fun i hi => hkb i (by omega)
      keyBlockUnkeyed := fun hu => by
        have hkl0 : ¬ 1 ≤ kl.toNat := of_decide_eq_false (hkeyed.symm.trans hu)
        ext i hi : 1
        rw [getElem_zeros]
        exact hkb ⟨i, hi⟩ (by simp only; omega)
      digestTail := htail }

/-- The counter stays aligned through the wrap at 2^128 (R46(d)). -/
theorem dvd_advanceCounter {t : BitVec 128} (h : 128 ∣ t.toNat) : 128 ∣ (advanceCounter t).toNat := by
  rw [advanceCounter_eq_add, BitVec.toNat_add, BitVec.toNat_ofNat]
  omega

/-- A byte keeps the invariant: a compression advances `T` by one block, and the buffer is not empty afterwards. -/
theorem HashInv.absorbByte {x : HashState} {dout : Vector Byte 64} (hx : HashInv x dout) (hc : x.conf = true) (b : Byte) :
    HashInv (x.absorbByte b) dout := by
  have hsame : SameConfiguration (x.absorbByte b) x := x.absorbByte_frame b
  have haligned : 128 ∣ (x.absorbByte b).t.toNat := by
    rcases x.absorbByte_cases b with ⟨-, h⟩ | ⟨-, h⟩
    · rw [h]
      exact hx.counterAligned
    · rw [h]
      exact dvd_advanceCounter hx.counterAligned
  refine ((hx.configured hc).congr hsame).hashInv haligned (fun h => absurd h (x.absorbByte_off_ne_zero b)) ?_
  obtain ⟨-, -, -, -, hdsize⟩ := hsame
  rw [hdsize]
  exact hx.digestTail

theorem HashInv.absorb {x : HashState} {dout : Vector Byte 64} (hx : HashInv x dout) (hc : x.conf = true)
    (p : List Byte) : HashInv (x.absorb p) dout := by
  induction p generalizing x with
  | nil => exact hx
  | cons b p ih =>
    obtain ⟨hconf, -⟩ := x.absorbByte_frame b
    exact ih (hx.absorbByte hc b) (hconf.trans hc)

/-- Absorbing the key block into an empty buffer starts no compression (R137). -/
theorem HashState.absorbKey_h_of_empty {x : HashState} (ho : x.off = 0) : x.absorbKey.h = x.h := by
  rw [x.absorbKey_of_empty ho]
  split <;> rfl

theorem HashState.absorbKey_t_of_empty {x : HashState} (ho : x.off = 0) : x.absorbKey.t = x.t := by
  rw [x.absorbKey_of_empty ho]
  split <;> rfl

/-- Once the key is absorbed, an empty buffer means there is no key (R46(f)). -/
theorem HashState.absorbKey_unkeyed_of_empty {x : HashState} (ho : x.off = 0) (h : x.absorbKey.off = 0) :
    x.absorbKey.keyed = false := by
  cases hk : x.keyed with
  | true =>
    rw [x.absorbKey_of_empty ho, if_pos hk] at h
    exact absurd h (by decide : (128 : Fin 129) ≠ 0)
  | false =>
    rw [x.absorbKey_of_empty ho, if_neg (by rw [hk]; decide)]
    exact hk

/-- The common end of `INIT` and `RESET`: the key absorbed into an empty hash, and an empty digest window (R140, R260). -/
theorem hashInv_restarted {x y : HashState} (hy : Configured y) (ht : x.t = 0) (ho : x.off = 0)
    (hyt : y.t = x.absorbKey.t) (hyo : y.off = x.absorbKey.off) (hyk : y.keyed = x.absorbKey.keyed) :
    HashInv y (zeros 64) := by
  have hyt0 : y.t = 0 := by rw [hyt, HashState.absorbKey_t_of_empty ho, ht]
  refine hy.hashInv ?_ (fun h => ⟨hyt0, ?_⟩) fun i _ => getElem_zeros i.val i.isLt
  · rw [hyt0]
    exact Nat.dvd_zero 128
  · rw [hyk]
    exact HashState.absorbKey_unkeyed_of_empty ho (hyo.symm.trans h)

theorem configError_eq_none {r : HostRegs} (h : configError r = none) :
    (keyLength r).toNat ≤ 64 ∧ (saltLength r).toNat ≤ 16 := by
  unfold configError at h
  split at h
  · cases h
  · split at h
    · cases h
    · omega

/-- The snapshot of a legal `INIT` is the configured chain, since absorbing the key compresses nothing (R138). -/
theorem configured_of_init {r : HostRegs} (h : configError r = none) (x : HashState) :
    Configured (x.configure r).absorbKey.takeSnapshot := by
  obtain ⟨hkl, hsl⟩ := configError_eq_none h
  obtain ⟨hconf, -, hkeyed, hkb, hdsize⟩ := sameConfiguration_absorbKey (x.configure r)
  have hhinit : (x.configure r).absorbKey.h = configuredChain r := HashState.absorbKey_h_of_empty rfl
  exact
    { conf := hconf
      digestSize := by
        rw [HashState.takeSnapshot_dsize, hdsize]
        exact clampDigestSize_range _
      origin := by
        simp only [HashState.takeSnapshot_dsize, HashState.takeSnapshot_keyed, HashState.takeSnapshot_hinit,
          HashState.takeSnapshot_kb, hkeyed, hkb, hdsize, hhinit]
        refine ⟨keyLength r, (saltLength r).toNat, r.salt, hkl, hsl, rfl, rfl, fun i hi => ?_⟩
        exact (getElem_keyBlock _ _ _ i.isLt).trans (if_neg (Nat.not_lt.mpr hi)) }

/-- Beyond `DSIZE` the digest window is zero (R237). -/
theorem digestWindow_tail (d : BitVec 7) (h : Vector Word 8) (i : Fin 64) (hi : d.toNat ≤ i.val) :
    (digestWindow d h)[i] = 0 :=
  (getElem_digestWindow d h i.val i.isLt).trans (if_neg (Nat.not_lt.mpr hi))

theorem exec_hashInv {i : Instr} {s t : State} (h : exec i s = .next t) (hs : HashInv s.hash s.regs.dout) :
    HashInv t.hash t.regs.dout := by
  rcases exec_cases h with ⟨c, -, rfl⟩ | ⟨-, hlegal, rfl⟩ | ⟨n, -, -, hc, rfl⟩ | ⟨-, hc, rfl⟩ | ⟨-, hc, rfl⟩
  · exact hs
  · exact hashInv_restarted (x := s.hash.configure s.regs) (configured_of_init hlegal s.hash) rfl rfl rfl rfl rfl
  · exact hs.absorb hc _
  · exact (hs.configured hc).hashInv hs.counterAligned hs.emptyBuffer (digestWindow_tail _ _)
  · exact hashInv_restarted (x := s.hash.start s.hash.hinit)
      ((hs.configured hc).congr (sameConfiguration_restart _ _)) rfl rfl rfl rfl rfl

theorem hashInv_reset : HashInv HashState.reset HostRegs.reset.dout where
  unconfigured _ := ⟨rfl, rfl, rfl, rfl, rfl, (zeros_eq_replicate 128).symm, rfl, (zeros_eq_replicate 64).symm⟩
  digestSize h := by cases h
  counterAligned := Nat.dvd_zero 128
  emptyBuffer _ := ⟨rfl, rfl⟩
  configuration h := by cases h
  keyBlockTail i _ := Vector.getElem_replicate i.isLt
  keyBlockUnkeyed _ := (zeros_eq_replicate 128).symm
  digestTail i _ := Vector.getElem_replicate i.isLt

/-- Every block in reset meets the invariant, whatever stands at its port (R330). -/
theorem State.AtReset.inv {s : State} (h : s.AtReset) : Inv s where
  hash := by
    rw [h]
    exact hashInv_reset
  heldInReset _ := h

/-- Settles O52, as the case of an idle port. -/
theorem resetMeetsInvariant : Obligations.ResetMeetsInvariant := State.AtReset.inv rfl

/-- Settles O51: a step leaves the hash state and `DOUT`, runs a command with `rst` deasserted, or ends in reset. -/
theorem everyStepKeepsInvariant : Obligations.EveryStepKeepsInvariant := by
  intro s t hs h
  rcases step_registers h with ⟨hhash, hdout, hport⟩ | ⟨off, w, rest, i, u, -, -, -, hu, hhash, hregs, hr⟩ | ⟨-, ht⟩
  · refine ⟨by rw [hhash, hdout]; exact hs.hash, fun hrst => ?_⟩
    rcases hport with rfl | hr
    · exact hs.heldInReset hrst
    · exact absurd (hr.symm.trans hrst) (by decide)
  · refine ⟨?_, fun hrst => absurd (hr.symm.trans hrst) (by decide)⟩
    rw [hhash, hregs]
    exact exec_hashInv hu hs.hash
  · exact ht.inv

/-! ## Before the first `INIT`, and after hardware reset -/

/-- Settles O9: past the check of the count, the first thing each of the three commands looks at is `CONF`. -/
theorem unconfiguredCommandsFail : Obligations.UnconfiguredCommandsFail := by
  refine ⟨rfl, fun s hconf => ⟨fun n hn => ?_, ?_, ?_⟩⟩
  · rw [exec, execWrite, if_neg (Nat.not_lt.mpr hn), State.whenConfigured_of_unconfigured _ _ hconf]
    rfl
  · rw [exec, execSum, State.whenConfigured_of_unconfigured _ _ hconf]
    rfl
  · rw [exec, execReset, State.whenConfigured_of_unconfigured _ _ hconf]
    rfl

theorem byteAt_replicate_zero (n i : Nat) : byteAt (Vector.replicate n (0 : Byte)) i = 0 := by
  by_cases h : i < n
  · rw [byteAt_of_lt _ h, Vector.getElem_replicate]
  · rw [byteAt_of_ge _ (Nat.not_lt.mp h)]

theorem le32_replicate_zero (n k : Nat) : le32 (Vector.replicate n (0 : Byte)) k = 0 := by
  simp only [le32, byteAt_replicate_zero]
  rfl

/-- Settles O15: every sequence is a replicated zero, and `LE32` reads zero from such a window. -/
theorem resetHoldsSpecValues : Obligations.ResetHoldsSpecValues := by
  have hzero {α : Type} {n : Nat} (a : α) (i : Fin n) : (Vector.replicate n a)[i] = a := Vector.getElem_replicate i.isLt
  exact ⟨rfl, hzero 0, hzero 0, rfl, hzero 0, rfl, rfl, hzero 0, rfl, rfl, rfl, hzero 0, hzero 0, hzero 0, hzero 0,
    by decide, by decide, by decide, by decide, by decide,
    fun k => le32_replicate_zero 16 (4 * k.val), fun k => le32_replicate_zero 128 (4 * k.val),
    fun k => le32_replicate_zero 64 (4 * k.val)⟩

/-! ## The bytes `INIT` does not read (R133, R135) -/

theorem byteAt_congr_below {n k : Nat} {a b : Vector Byte n} (h : ∀ i : Fin n, i.val < k → a[i] = b[i]) (i : Nat)
    (hi : i < k) : byteAt a i = byteAt b i := by
  by_cases hn : i < n
  · rw [byteAt_of_lt _ hn, byteAt_of_lt _ hn]
    exact h ⟨i, hn⟩ hi
  · rw [byteAt_of_ge _ (Nat.not_lt.mp hn), byteAt_of_ge _ (Nat.not_lt.mp hn)]

/-- The configured hash state reads `KEY` below `KEYLEN` and `SALT` below `SALTLEN` only. -/
theorem configure_congr {r : HostRegs} {key : Vector Byte 64} {salt : Vector Byte 16} (x : HashState)
    (hkey : ∀ i : Fin 64, i.val < (keyLength r).toNat → key[i] = r.key[i])
    (hsalt : ∀ i : Fin 16, i.val < (saltLength r).toNat → salt[i] = r.salt[i]) :
    x.configure { r with key := key, salt := salt } = x.configure r := by
  have hkb : keyBlock (keyLength r).toNat key = keyBlock (keyLength r).toNat r.key :=
    keyBlock_congr (byteAt_congr_below hkey)
  have hchain : configuredChain { r with key := key, salt := salt } = configuredChain r :=
    congrArg initialChain (paramBlock_congr _ _ (byteAt_congr_below hsalt))
  rw [HashState.configure, HashState.configure, hchain]
  exact congrArg (fun kb => { x.configure r with kb := kb }) hkb

/-- Settles O28: the checks of `INIT` read `CFG` only, and the state it configures ignores the other bytes. -/
theorem initIgnoresUnusedKeyAndSalt : Obligations.InitIgnoresUnusedKeyAndSalt := by
  intro s t key salt hkey hsalt h
  have herror : configError { s.regs with key := key, salt := salt } = configError s.regs := rfl
  rw [exec, execInit] at h ⊢
  rw [State.setRegs_regs, State.setRegs_hash, herror, configure_congr s.hash hkey hsalt]
  cases hc : configError s.regs <;> (rw [hc] at h; cases h; rfl)

/-! ## The staging registers that a command does not read -/

/-- `s` with its staging and output registers changed by `e`. -/
def State.mapRegs (e : HostRegs → HostRegs) (s : State) : State := s.setRegs (e s.regs)

section
variable (e : HostRegs → HostRegs)

@[simp] theorem State.mapRegs_hash (s : State) : (s.mapRegs e).hash = s.hash := rfl
@[simp] theorem State.mapRegs_regs (s : State) : (s.mapRegs e).regs = e s.regs := rfl

theorem State.whenConfigured_mapRegs {f : State → State} (s : State) (hf : f (s.mapRegs e) = (f s).mapRegs e) :
    (s.mapRegs e).whenConfigured f = (s.whenConfigured f).mapRegs e := by
  cases hc : s.hash.conf with
  | false =>
    rw [State.whenConfigured_of_unconfigured f s hc, State.whenConfigured_of_unconfigured f (s.mapRegs e) hc]
    rfl
  | true =>
    rw [State.whenConfigured_of_configured f s hc, State.whenConfigured_of_configured f (s.mapRegs e) hc, hf]
    rfl

theorem State.setDigest_mapRegs (hdout : ∀ r d, e { r with dout := d } = { e r with dout := d }) (s : State)
    (d : Vector Byte 64) : (s.mapRegs e).setDigest d = (s.setDigest d).mapRegs e :=
  congrArg s.setRegs (hdout s.regs d).symm

/-- A command other than `INIT` reads no staging register but `DIN`: a change `e` of the others passes through it
(R204, R238, R260). -/
theorem exec_mapRegs {i : Instr} {s t : State} (hdin : ∀ r, (e r).din = r.din)
    (hdout : ∀ r d, e { r with dout := d } = { e r with dout := d }) (hi : i ≠ .init) (h : exec i s = .next t) :
    exec i (s.mapRegs e) = .next (t.mapRegs e) := by
  cases i with
  | init => exact absurd rfl hi
  | write n =>
    have hinput : inputBytes n (e s.regs) = inputBytes n s.regs := by rw [inputBytes, hdin, inputBytes]
    rw [exec, execWrite] at h ⊢
    by_cases hn : 128 < n
    · rw [if_pos hn] at h ⊢
      rw [← Host.Outcome.next.inj h]
      rfl
    · rw [if_neg hn] at h ⊢
      rw [← Host.Outcome.next.inj h, State.whenConfigured_mapRegs]
      rw [State.mapRegs_hash, State.mapRegs_regs, hinput]
      rfl
  | sum =>
    rw [exec, execSum] at h ⊢
    rw [← Host.Outcome.next.inj h, State.whenConfigured_mapRegs]
    exact State.setDigest_mapRegs e hdout s _
  | reset =>
    rw [exec, execReset] at h ⊢
    rw [← Host.Outcome.next.inj h, State.whenConfigured_mapRegs]
    exact State.setDigest_mapRegs e hdout (s.setHash _) _

end

/-! ## The key staging window (R38, R308) -/

/-- `s` with `KEY` replaced. -/
def State.setKey (key : Vector Byte 64) (s : State) : State := s.mapRegs fun r => { r with key := key }

/-- No register reads `KEY` back (R281). -/
theorem readReg_setKey (r : WindowReg) (key : Vector Byte 64) (s : State) : readReg r (s.setKey key) = readReg r s := by
  cases r <;> rfl

theorem writeReg_setKey (r : WindowReg) (w : HostWord) (key : Vector Byte 64) (s : State) :
    ∃ key', writeReg r w (s.setKey key) = (writeReg r w s).setKey key' := by
  cases r with
  | key k => exact ⟨storeWord key (4 * k.val) w, rfl⟩
  | _ => exact ⟨key, rfl⟩

theorem exec_setKey {i : Instr} {s t : State} (hi : i ≠ .init) (h : exec i s = .next t) (key : Vector Byte 64) :
    exec i (s.setKey key) = .next (t.setKey key) :=
  exec_mapRegs (fun r => { r with key := key }) (fun _ => rfl) (fun _ _ => rfl) hi h

theorem keepsConfiguration_command {off : Offset} {w : HostWord} (hcmd : regAt off = .cmd)
    (h : keepsConfiguration (.access (.write off w)) = true) : decode w ≠ .ok .init := by
  intro hw
  simp [keepsConfiguration, hcmd, hw] at h

theorem serveEvent_access (s : State) (x : Transaction) (hr : s.port.rst = false) :
    serveEvent (.access x) s = serveAccess x s := by
  rw [serveEvent, hr]
  rfl

/-- An access that issues no `INIT` does the same to two blocks that differ in `KEY` only. -/
theorem serveEvent_setKey {e : HostEvent} {s t : State} (he : keepsConfiguration e = true)
    (h : serveEvent e s = .next t) (key : Vector Byte 64) :
    ∃ key', serveEvent e (s.setKey key) = .next (t.setKey key') := by
  rcases serveEvent_cases h with ⟨off, rfl, hr, rfl⟩ | ⟨off, w, rfl, hr, hcmd, rfl⟩ |
    ⟨off, w, i, u, rfl, hr, hcmd, hw, hu, rfl⟩ | ⟨off, w, x, rfl, hr, hcmd, hw, rfl⟩ | ⟨level, rfl, -⟩ |
    ⟨rfl, -⟩ | ⟨x, rfl, -⟩
  · refine ⟨key, ?_⟩
    rw [serveEvent_access (s.setKey key) _ hr, serveAccess, readReg_setKey]
    rfl
  · obtain ⟨key', hkey'⟩ := writeReg_setKey (regAt off) w key s
    refine ⟨key', ?_⟩
    rw [serveEvent_access (s.setKey key) _ hr, serveAccess_write_of_ne_cmd _ _ _ hcmd, hkey']
    rfl
  · have hi : i ≠ .init := fun hi => keepsConfiguration_command hcmd he (hi ▸ hw)
    refine ⟨key, ?_⟩
    rw [serveEvent_access (s.setKey key) _ hr, serveAccess_write_of_cmd _ _ _ hcmd, runCommand, hw]
    exact congrArg acknowledge (exec_setKey hi hu key)
  · refine ⟨key, ?_⟩
    rw [serveEvent_access (s.setKey key) _ hr, serveAccess_write_of_cmd _ _ _ hcmd, runCommand, hw]
    rfl
  all_goals cases he

/-- Serving an event leaves what is pending. -/
theorem serveEvent_pending {e : HostEvent} {s t : State} (h : serveEvent e s = .next t) :
    t.port.pending = s.port.pending := by
  rcases serveEvent_cases h with ⟨off, -, -, rfl⟩ | ⟨off, w, -, -, -, rfl⟩ | ⟨off, w, i, u, -, -, -, -, hu, rfl⟩ |
    ⟨off, w, x, -, -, -, -, rfl⟩ | ⟨level, -, -, rfl⟩ | ⟨-, -, rfl⟩ | ⟨x, -, -, rfl⟩
  · rfl
  · simp
  · simp [exec_port hu]
  · rfl
  · rfl
  · rfl
  · obtain ⟨-, -, -, -, hpending⟩ := State.respondCutOff_frame x s.hardwareReset
    exact hpending

/-- A step takes the oldest event from the port (R71). -/
theorem step_pending {s t : State} (h : step s = .next t) : t.port.pending = s.port.pending.tail := by
  rcases step_cases h with ⟨hp, rfl⟩ | ⟨e, rest, hp, he⟩
  · rw [hp]
    rfl
  · rw [serveEvent_pending he, hp]
    rfl

theorem step_setKey {s t : State} (hkeeps : ∀ e ∈ s.port.pending, keepsConfiguration e = true)
    (h : step s = .next t) (key : Vector Byte 64) : ∃ key', step (s.setKey key) = .next (t.setKey key') := by
  rcases step_cases h with ⟨hp, rfl⟩ | ⟨e, rest, hp, he⟩
  · exact ⟨key, step_of_nil hp⟩
  · have hk : keepsConfiguration e = true := hkeeps e (by rw [hp]; exact List.mem_cons_self)
    obtain ⟨key', hkey'⟩ := serveEvent_setKey hk he key
    exact ⟨key', (step_of_cons (s := s.setKey key) hp).trans hkey'⟩

theorem run_succ_eq_next {n : Nat} {s t : State} :
    run (n + 1) s = .next t ↔ ∃ u, step s = .next u ∧ run n u = .next t := by
  rw [run]
  cases step s <;> simp

/-- Along a run without `INIT` and reset, two blocks that differ in `KEY` only go on differing in `KEY` only. -/
theorem run_setKey (n : Nat) {s t : State} (hkeeps : ∀ e ∈ s.port.pending, keepsConfiguration e = true)
    (h : run n s = .next t) (key : Vector Byte 64) : ∃ key', run n (s.setKey key) = .next (t.setKey key') := by
  induction n generalizing s key with
  | zero =>
    cases h
    exact ⟨key, rfl⟩
  | succ n ih =>
    obtain ⟨u, hu, hrun⟩ := run_succ_eq_next.mp h
    obtain ⟨key₁, hstep⟩ := step_setKey hkeeps hu key
    have hkeeps' : ∀ e ∈ u.port.pending, keepsConfiguration e = true := by
      rw [step_pending hu]
      exact fun e he => hkeeps e (List.mem_of_mem_tail he)
    obtain ⟨key₂, hrun'⟩ := ih hkeeps' hrun key₁
    exact ⟨key₂, run_succ_eq_next.mpr ⟨_, hstep, hrun'⟩⟩

/-- Settles O23, as the run of the program from the state with the program at the port. -/
theorem keyStagingIsUnobservable : Obligations.KeyStagingIsUnobservable := fun s _t key program hkeeps h =>
  run_setKey program.length (s := s.withProgram program) hkeeps h key

end Sys2Proof.Machine
end

section
/-! PROOFS. The register window: its map, its byte order and its digest words, and how the port serves one event
(spec/20_memory.md). -/

namespace Sys2Proof.Machine

/-! ## The register map (R61, R62) -/

/-- Masking with 0x1FC keeps bits [8:2] and clears bits [1:0] (R61). -/
theorem and_0x1FC_eq_append (off : Offset) : off &&& 0x1FC#9 = off.extractLsb' 2 7 ++ 0#2 := by
  have hmask : ∀ i, i < 9 → (0x1FC#9).getLsbD i = decide (2 ≤ i) := by decide
  apply BitVec.eq_of_getLsbD_eq
  intro i hi
  rw [BitVec.getLsbD_and, hmask i hi, BitVec.getLsbD_append, BitVec.getLsbD_extractLsb']
  by_cases h2 : i < 2
  · simp [h2]
  · have hsplit : 2 + (i - 2) = i := by omega
    have hle : 2 ≤ i := by omega
    have hlt : i - 2 < 7 := by omega
    simp [h2, hle, hlt, hsplit]

theorem wordOffset_eq_extractLsb' (off : Offset) : wordOffset off = 4 * (off.extractLsb' 2 7).toNat := by
  rw [wordOffset, and_0x1FC_eq_append, BitVec.toNat_append, BitVec.toNat_ofNat, Nat.zero_mod, Nat.or_zero,
    Nat.shiftLeft_eq, Nat.mul_comm]

theorem wordOffset_eq (off : Offset) : wordOffset off = 4 * (off.toNat / 4) := by
  have hlt : off.toNat < 2 ^ 9 := off.isLt
  rw [wordOffset_eq_extractLsb', BitVec.extractLsb'_toNat, Nat.shiftRight_eq_div_pow]
  omega

/-- The register at an offset depends on the word the offset lies in only. -/
theorem regAt_congr {a b : Offset} (h : wordOffset a = wordOffset b) : regAt a = regAt b := by
  simp only [regAt, h]

/-- Settles O18: the word an offset lies in is given by its bits [8:2]. -/
theorem offsetLowBitsAreIgnored : Obligations.OffsetLowBitsAreIgnored := fun a b h =>
  regAt_congr (by rw [wordOffset_eq_extractLsb', wordOffset_eq_extractLsb', h])

/-- The four ranges of the map that name no register (R62). -/
theorem regAt_eq_reserved {off : Offset}
    (h : (0x014 ≤ off.toNat ∧ off.toNat < 0x020) ∨ (0x030 ≤ off.toNat ∧ off.toNat < 0x040) ∨
      (0x090 ≤ off.toNat ∧ off.toNat < 0x100) ∨ 0x1C0 ≤ off.toNat) : regAt off = .reserved := by
  have ho := wordOffset_eq off
  rw [regAt, if_neg (by omega), if_neg (by omega), if_neg (by omega), if_neg (by omega), if_neg (by omega),
    dif_neg (by omega), dif_neg (by omega), dif_neg (by omega), dif_neg (by omega), dif_neg (by omega)]

/-- Settles O17: the named words are computed one by one, the reserved ranges follow from their bounds. -/
theorem registerMapOfWindow : Obligations.RegisterMapOfWindow := by
  refine ⟨by decide, by decide, by decide, by decide, by decide, ?cnt, ?key, ?salt, ?din, ?dout, ?reserved⟩
  case cnt => decide
  case key => decide
  case salt => decide
  case din => decide
  case dout => decide
  case reserved => exact fun _ => regAt_eq_reserved

/-! ## The bytes of a word of a window (R64) -/

section
variable {n : Nat} (win : Vector Byte n) (w : HostWord) {k j : Nat}

/-- Byte `j` of word `k` of a window, as the word is read. -/
theorem extractLsb'_le32 (hj : j < 4) (h : 4 * k + j < n) :
    (le32 win (4 * k)).extractLsb' (8 * j) 8 = win[4 * k + j] :=
  (hostByte_le32 win (4 * k) j hj).trans (byteAt_of_lt win h)

/-- Byte `j` of word `k` of a window, after the word is written. -/
theorem getElem_storeWord_same (hj : j < 4) (h : 4 * k + j < n) :
    (storeWord win (4 * k) w)[4 * k + j] = w.extractLsb' (8 * j) 8 := by
  rw [getElem_storeWord, if_pos (by omega), Nat.add_sub_cancel_left, hostByte]

/-- A write to word `k` of a window leaves the bytes of its other words. -/
theorem getElem_storeWord_of_ne {i : Nat} (hi : i / 4 ≠ k) (h : i < n) :
    (storeWord win (4 * k) w)[i] = win[i] := by
  rw [getElem_storeWord, if_neg (by omega)]

end

/-- Settles O20, window by window: the bytes read, the bytes written, the bytes of the other words, and the other registers. -/
theorem windowBytesAreLittleEndian : Obligations.WindowBytesAreLittleEndian := by
  intro s w j
  refine ⟨fun k => ⟨?_, ?_⟩, fun k => ⟨?_, ?_⟩, fun k => ⟨?_, ?_⟩, fun k i hi => ?_, fun k i hi => ?_, fun k i hi => ?_,
    fun _ => rfl, fun _ => rfl, fun _ => rfl, rfl⟩
  · exact extractLsb'_le32 s.regs.salt j.isLt _
  · exact getElem_storeWord_same s.regs.salt w j.isLt _
  · exact extractLsb'_le32 s.regs.din j.isLt _
  · exact getElem_storeWord_same s.regs.din w j.isLt _
  · exact extractLsb'_le32 s.regs.dout j.isLt _
  · exact getElem_storeWord_same s.regs.key w j.isLt _
  · exact getElem_storeWord_of_ne s.regs.salt w hi i.isLt
  · exact getElem_storeWord_of_ne s.regs.din w hi i.isLt
  · exact getElem_storeWord_of_ne s.regs.key w hi i.isLt

/-! ## The words of a 64-byte digest (R64, R236) -/

/-- A 64-byte digest is the whole serialization: nothing is truncated (R236, R237). -/
theorem digestWindow_64 (h : Vector Word 8) : digestWindow 64#7 h = serialize h := by
  apply Vector.ext
  intro i hi
  exact (getElem_digestWindow 64#7 h i hi).trans (if_pos hi)

/-- Byte `j` of the low half (`b` = 0) or the high half (`b` = 1) of a hash word. -/
theorem hostByte_extractLsb' (x : Word) (b : Nat) {j : Nat} (hj : j < 4) :
    hostByte (x.extractLsb' (32 * b) 32) j = wordByte x (4 * b + j) := by
  apply BitVec.eq_of_getLsbD_eq
  intro i hi
  have hbit : 8 * j + i < 32 := by omega
  have hplace : 32 * b + (8 * j + i) = 8 * (4 * b + j) + i := by omega
  simp [hostByte, wordByte, hi, hbit, hplace]

/-- Words 2k and 2k + 1 of the serialization are the low and the high half of chain value `k`. -/
theorem le32_serialize (h : Vector Word 8) (k : Fin 8) {b : Nat} (hb : b < 2) :
    le32 (serialize h) (4 * (2 * k.val + b)) = h[k].extractLsb' (32 * b) 32 := by
  apply hostWord_eq_of_bytes
  intro j hj
  have hword : (4 * (2 * k.val + b) + j) / 8 = k.val := by omega
  have hbyte : (4 * (2 * k.val + b) + j) % 8 = 4 * b + j := by omega
  rw [hostByte_le32 _ _ _ hj, byteAt_of_lt _ (by omega), getElem_serialize, hostByte_extractLsb' _ _ hj]
  simp only [hword, hbyte]
  rfl

/-- Settles O42: `SUM` leaves the whole serialization in `DOUT`, and its words are the halves of the chain values. -/
theorem doutWordsAreChainHalves : Obligations.DoutWordsAreChainHalves := by
  intro s hconf hdsize
  rcases execSum_cases s with ⟨hnot, -⟩ | ⟨-, hsum⟩
  · exact absurd (hconf.symm.trans hnot) (by decide)
  · refine ⟨_, hsum, fun k => ?_⟩
    rw [hdsize, digestWindow_64]
    exact ⟨le32_serialize _ k (b := 0) (by decide), le32_serialize _ k (b := 1) (by decide)⟩

/-! ## Serving one event (R71) -/

/-- The events still waiting are no part of what a register reads. -/
theorem readReg_setPending (r : WindowReg) (es : List HostEvent) (s : State) :
    readReg r (s.setPending es) = readReg r s := by
  cases r <;> rfl

theorem writeReg_setPending (r : WindowReg) (w : HostWord) (es : List HostEvent) (s : State) :
    writeReg r w (s.setPending es) = (writeReg r w s).setPending es := by
  cases r <;> rfl

/-- Outside reset a step serves the oldest access on the state without it. -/
theorem step_access {s : State} {x : Transaction} {rest : List HostEvent} (hr : s.port.rst = false)
    (hp : s.port.pending = .access x :: rest) : step s = serveAccess x (s.setPending rest) :=
  (step_of_cons hp).trans (serveEvent_access (s.setPending rest) x hr)

/-- A transaction cut off by hardware reset is answered at most once (R331). -/
theorem State.respondCutOff_responses (x : Transaction) (s : State) :
    (s.respondCutOff x).port.responses = s.port.responses ∨
      ∃ r, (s.respondCutOff x).port.responses = s.port.responses ++ [r] := by
  unfold State.respondCutOff
  cases hacked : Config.cutOffAcked s.port.freeIndex with
  | false => exact .inl (by simp [hacked])
  | true =>
    cases x with
    | read off => exact .inr ⟨.readData (Config.cutOffData s.port.freeIndex), by simp [hacked]⟩
    | write off w => exact .inr ⟨.writeAck, by simp [hacked]⟩

/-- Settles O11, by the kind of event served. -/
theorem stepServesOldestEvent : Obligations.StepServesOldestEvent := by
  intro s t e rest hp h
  refine ⟨by rw [step_pending h, hp, List.tail_cons], ?_⟩
  rw [step_of_cons hp] at h
  rcases serveEvent_cases h with ⟨off, rfl, -, rfl⟩ | ⟨off, w, rfl, -, -, rfl⟩ | ⟨off, w, i, u, rfl, -, -, -, hu, rfl⟩ |
    ⟨off, w, x, rfl, -, -, -, rfl⟩ | ⟨level, rfl, -, rfl⟩ | ⟨rfl, -, rfl⟩ | ⟨x, rfl, -, rfl⟩
  · simp [readReg_setPending]
  · simp
  · simp [exec_port hu]
  · simp
  · simp
  · simp
  · exact State.respondCutOff_responses x (s.setPending rest).hardwareReset

/-! ## Register accesses that are no command (R67, R282) -/

/-- A register that ignores writes: the read-only registers and the reserved offsets (R282). -/
theorem writeReg_readOnly {r : WindowReg} (w : HostWord) (s : State)
    (h : r = .reserved ∨ r = .status ∨ r = .size ∨ r = .blksz ∨ (∃ k, r = .cnt k) ∨ ∃ k, r = .dout k) :
    writeReg r w s = s := by
  rcases h with rfl | rfl | rfl | rfl | ⟨k, rfl⟩ | ⟨k, rfl⟩ <;> rfl

/-- Settles O22: a read answers and stores nothing, a write stores as `writeReg` does. -/
theorem registerAccessLeavesTheHash : Obligations.RegisterAccessLeavesTheHash := by
  intro s off w rest hr
  refine ⟨fun hp => ⟨_, step_access hr hp, rfl, rfl, rfl⟩, fun hp hcmd => ?_⟩
  have hstep : step s = .next (((writeReg (regAt off) w s).setPending rest).respond .writeAck) := by
    rw [step_access hr hp, serveAccess_write_of_ne_cmd _ _ _ hcmd, writeReg_setPending]
  refine ⟨_, hstep, writeReg_hash _ _ _, writeReg_err _ _ _, writeReg_dout _ _ _, rfl, fun hro => ?_⟩
  rw [State.respond_regs, State.setPending_regs, writeReg_readOnly w s hro]

/-! ## Command writes (R71, R105, R283) -/

theorem runCommand_of_decode {w : HostWord} {i : Instr} (hw : decode w = .ok i) (s : State) :
    runCommand w s = exec i s := by
  rw [runCommand, hw]

/-- A step at a `CMD` write runs the word to its end and then acknowledges it. -/
theorem step_command {s t : State} {off : Offset} {w : HostWord} {rest : List HostEvent} (hr : s.port.rst = false)
    (hp : s.port.pending = .access (.write off w) :: rest) (hcmd : regAt off = .cmd)
    (h : runCommand w (s.setPending rest) = .next t) : step s = .next (t.respond .writeAck) := by
  rw [step_access hr hp, serveAccess_write_of_cmd _ _ _ hcmd, h, acknowledge]

theorem decode_of_decodeTableWord {nbits w : Nat} {i : Instr} (h : decodeTableWord nbits w = some i) :
    decode (tableWord nbits w) = .ok i := by
  rw [decodeTableWord] at h
  cases hd : decode (tableWord nbits w) with
  | ok j =>
    rw [hd] at h
    exact congrArg Except.ok (Option.some.inj h)
  | error x =>
    rw [hd] at h
    cases h

/-- A presented command word is served on the state itself, with `rst` deasserted. -/
theorem setPending_withFetchWord (s : State) (nbits w : Nat) :
    (s.withFetchWord nbits w).setPending s.port.pending = s.setRst false := rfl

/-- Settles O10: the word at `CMD` runs as `runCommand` says, which on a word that decodes is the command. -/
theorem stepRunsDecodedCommand : Obligations.StepRunsDecodedCommand := by
  refine ⟨fun s off w rest hr hp hcmd => ?word, fun s off w rest i hr hp hcmd hw _ => ?decoded,
    fun s nbits w i hi => ?fetched⟩
  case word =>
    obtain ⟨t, ht⟩ := runCommand_answers w (s.setPending rest)
    exact ⟨t, ht, step_command hr hp hcmd ht⟩
  case decoded =>
    obtain ⟨t, ht⟩ := exec_answers i (s.setPending rest)
    exact ⟨t, ht, step_command hr hp hcmd ((runCommand_of_decode hw _).trans ht)⟩
  case fetched =>
    obtain ⟨t, ht⟩ := exec_answers i (s.setRst false)
    have hrun : runCommand (tableWord nbits w) ((s.withFetchWord nbits w).setPending s.port.pending) = .next t := by
      rw [setPending_withFetchWord, runCommand_of_decode (decode_of_decodeTableWord hi), ht]
    exact ⟨t, ht, step_command (s := s.withFetchWord nbits w) rfl rfl regAt_cmd hrun⟩

end Sys2Proof.Machine
end

section
/-! PROOFS. Command words: the decoder and the encoder are inverse to each other, which words are commands, what an illegal word
does, and the counts of `WRITE` (spec/30_encoding.md). -/

namespace Sys2Proof.Machine

/-! ## The fields of a word (R101) -/

/-- A word is its three fields. -/
theorem append_fields (w : HostWord) : rsvField w ++ lenField w ++ opField w = w := by
  have hupper : (8 : Nat) + 8 = 16 := rfl
  have hlower : (0 : Nat) + 8 = 8 := rfl
  rw [rsvField, lenField, opField, BitVec.extractLsb'_append_extractLsb'_eq_extractLsb' hupper.symm,
    BitVec.extractLsb'_append_extractLsb'_eq_extractLsb' hlower.symm, BitVec.extractLsb'_eq_self]

/-- The word of a well-formed command holds its three fields. -/
theorem fields_encode {i : Instr} (h : i.wellFormed = true) :
    opField (encode i) = opcodeOf i ∧ lenField (encode i) = lengthOf i ∧ rsvField (encode i) = 0 := by
  cases i with
  | init => exact Laws.EncodingFields.init h
  | write n => exact Laws.EncodingFields.write n h
  | sum => exact Laws.EncodingFields.sum h
  | reset => exact Laws.EncodingFields.reset h

/-! ## What the decoder reads (R103, R104) -/

/-- The four opcodes, with the count only `WRITE` takes from `LEN`. -/
theorem commandOf_eq_some {op : BitVec 8} {n : Nat} {i : Instr} :
    commandOf op n = some i ↔
      (op = 0x01#8 ∧ i = .init) ∨ (op = 0x02#8 ∧ i = .write n) ∨ (op = 0x03#8 ∧ i = .sum) ∨
        (op = 0x04#8 ∧ i = .reset) := by
  unfold commandOf
  split_ifs <;> simp_all [eq_comm]

/-- The checks of the decode, in its order: opcode, `RSV`, `LEN` (R104). -/
theorem decode_eq_ok {w : HostWord} {i : Instr} :
    decode w = .ok i ↔
      commandOf (opField w) (lenField w).toNat = some i ∧ rsvField w = 0#16 ∧
        (opField w = 0x02#8 ∨ lenField w = 0#8) := by
  unfold decode
  cases commandOf (opField w) (lenField w).toNat with
  | none => simp
  | some j =>
    by_cases hrsv : rsvField w = 0#16
    · by_cases hlen : opField w = 0x02#8 ∨ lenField w = 0#8
      · rcases hlen with h | h <;> simp [hrsv, h]
      · obtain ⟨hop, hlen'⟩ := not_or.mp hlen
        simp [hrsv, hop, hlen']
    · simp [hrsv]

/-- A word decodes to the well-formed command that has its three fields, and to no other. -/
theorem decode_eq_ok_iff_fields {w : HostWord} {i : Instr} :
    decode w = .ok i ↔
      i.wellFormed = true ∧ opField w = opcodeOf i ∧ lenField w = lengthOf i ∧ rsvField w = 0#16 := by
  rw [decode_eq_ok, commandOf_eq_some]
  cases i with
  | write n =>
    have hcount : n = (lenField w).toNat ↔ n < 256 ∧ lenField w = BitVec.ofNat 8 n := by
      rw [← BitVec.toNat_inj, BitVec.toNat_ofNat]
      have hlt := (lenField w).isLt
      omega
    simp only [Instr.wellFormed, opcodeOf, lengthOf, Instr.write.injEq, reduceCtorEq, hcount, decide_eq_true_iff]
    tauto
  | init | sum | reset => by_cases hop : opField w = 0x02#8 <;>
    simp [Instr.wellFormed, opcodeOf, lengthOf, hop, and_comm]

/-- Settles O2: the word of a well-formed command has the command's fields. -/
theorem decodeInvertsEncode : Obligations.DecodeInvertsEncode := fun _ h =>
  decode_eq_ok_iff_fields.mpr ⟨h, fields_encode h⟩

/-- Settles O3: the decoded command has the word's fields, and a word is its fields. -/
theorem encodeInvertsDecode : Obligations.EncodeInvertsDecode := by
  intro w i h
  obtain ⟨hwf, hop, hlen, hrsv⟩ := decode_eq_ok_iff_fields.mp h
  refine ⟨hwf, ?_⟩
  calc encode i = rsvField w ++ lenField w ++ opField w := by rw [hop, hlen, hrsv, encode]
    _ = w := append_fields w

/-- The decoder is the partial inverse of the encoder. -/
theorem decode_eq_ok_iff {w : HostWord} {i : Instr} : decode w = .ok i ↔ i.wellFormed = true ∧ w = encode i := by
  constructor
  · intro h
    obtain ⟨hwf, henc⟩ := encodeInvertsDecode w i h
    exact ⟨hwf, henc.symm⟩
  · rintro ⟨hwf, rfl⟩
    exact decodeInvertsEncode i hwf

/-! ## Which words are commands (R104, R106) -/

theorem toNat_append_eq_add {m n : Nat} (x : BitVec m) (y : BitVec n) : (x ++ y).toNat = x.toNat * 2 ^ n + y.toNat := by
  rw [BitVec.toNat_append, ← Nat.shiftLeft_add_eq_or_of_lt y.isLt, Nat.shiftLeft_eq]

/-- The word of `WRITE n`, its count added in place of `LEN` (R101, R106). -/
theorem encode_write {n : Nat} (h : n ≤ 255) :
    encode (.write n) = 0x00000002#32 + 0x100#32 * BitVec.ofNat 32 n := by
  apply BitVec.eq_of_toNat_eq
  simp only [encode, opcodeOf, lengthOf, toNat_append_eq_add, BitVec.toNat_add, BitVec.toNat_mul, BitVec.toNat_ofNat]
  omega

theorem decode_eq_write_iff {w : HostWord} {n : Nat} :
    decode w = .ok (.write n) ↔ n ≤ 255 ∧ w = 0x00000002#32 + 0x100#32 * BitVec.ofNat 32 n := by
  have hwf : (Instr.write n).wellFormed = true ↔ n ≤ 255 := by
    rw [Instr.wellFormed, decide_eq_true_iff]
    omega
  rw [decode_eq_ok_iff, hwf]
  exact and_congr_right fun h => by rw [encode_write h]

/-- A word is illegal when it decodes to no command. -/
theorem decode_eq_error_iff {w : HostWord} : (∃ x, decode w = .error x) ↔ ∀ i, decode w ≠ .ok i := by
  cases decode w <;> simp

/-- Settles O4: the four kinds of command word, and the illegal words as those of none of the kinds. -/
theorem decoderAccountsForEveryWord : Obligations.DecoderAccountsForEveryWord := by
  intro w
  have hinit : decode w = .ok .init ↔ w = 0x00000001#32 := decode_eq_ok_iff.trans (and_iff_right rfl)
  have hsum : decode w = .ok .sum ↔ w = 0x00000003#32 := decode_eq_ok_iff.trans (and_iff_right rfl)
  have hreset : decode w = .ok .reset ↔ w = 0x00000004#32 := decode_eq_ok_iff.trans (and_iff_right rfl)
  refine ⟨hinit, hsum, hreset, fun n => decode_eq_write_iff, ?_⟩
  rw [decode_eq_error_iff]
  constructor
  · intro h
    exact ⟨mt hinit.mpr (h _), mt hsum.mpr (h _), mt hreset.mpr (h _),
      fun n hn hw => h _ (decode_eq_write_iff.mpr ⟨hn, hw⟩)⟩
  · rintro ⟨h1, h3, h4, hwrite⟩ i
    cases i with
    | init => exact mt hinit.mp h1
    | sum => exact mt hsum.mp h3
    | reset => exact mt hreset.mp h4
    | write n =>
      intro hw
      obtain ⟨hn, hw⟩ := decode_eq_write_iff.mp hw
      exact hwrite n hn hw

/-- Settles O1: the command words are those of their commands, and each illegal word fails the check the rule names. -/
theorem decodeReadsSpecWords : Obligations.DecodeReadsSpecWords := by
  unfold Obligations.DecodeReadsSpecWords
  decide

/-! ## Illegal words and counts above 128 (R104, R105) -/

/-- Settles O5: a legal word has one of the four opcodes, `RSV` = 0, and `LEN` = 0 unless it is a `WRITE`. -/
theorem illegalWordChangesOnlyErr : Obligations.IllegalWordChangesOnlyErr := by
  refine ⟨rfl, fun w s hillegal => ?_⟩
  have herror : ∃ x, decode w = .error x := by
    rw [decode_eq_error_iff]
    intro i hi
    obtain ⟨-, hop, hlen, hrsv⟩ := decode_eq_ok_iff_fields.mp hi
    rw [opField] at hop
    rw [lenField] at hlen
    rw [rsvField] at hrsv
    rw [hop, hlen, hrsv] at hillegal
    cases i <;> simp [opcodeOf, lengthOf] at hillegal
  obtain ⟨x, hx⟩ := herror
  rw [runCommand, hx]
  rfl

/-- Settles O30: the length check comes first, and on a configured state `WRITE 0` absorbs nothing. -/
theorem writeCountLimits : Obligations.WriteCountLimits := by
  refine ⟨rfl, fun s => ⟨fun n hn => ?_, fun hconf => ?_⟩⟩
  · rw [exec, execWrite, if_pos hn]
    rfl
  · rw [exec, execWrite, if_neg (by decide), State.whenConfigured_of_configured _ _ hconf]
    rfl

end Sys2Proof.Machine
end

section
/-! PROOFS. Host programs and `MAC`: what serving a program leaves and reads, one part of `MAC` after the other (spec/30_encoding.md R107,
R108, spec/70_reset_and_hazards.md R353). -/

namespace Sys2Proof.Machine

/-! ## Serving a program (R107, R353) -/

/-- Two runs in a row are one run. -/
theorem run_add {m n : Nat} {s t u : State} (h : run m s = .next t) (h' : run n t = .next u) :
    run (m + n) s = .next u := by
  induction m generalizing s with
  | zero =>
    cases h
    rwa [Nat.zero_add]
  | succ m ih =>
    obtain ⟨v, hv, hrun⟩ := run_succ_eq_next.mp h
    rw [Nat.succ_add]
    exact run_succ_eq_next.mpr ⟨v, hv, ih hrun⟩

/-- The block serves `program` from `s`, whatever is pending behind it, and is then in `t`, outside reset and with the answers
`words` added to what was read. -/
structure Serves (program : List HostEvent) (s t : State) (words : List HostWord) : Prop where
  runs : ∀ rest, run program.length (s.setPending (program ++ rest)) = .next (t.setPending rest)
  awake : t.port.rst = false
  reads : observedReads t = observedReads s ++ words

theorem serves_nil {s : State} (hr : s.port.rst = false) : Serves [] s s [] where
  runs _ := rfl
  awake := hr
  reads := (List.append_nil _).symm

theorem Serves.append {p q : List HostEvent} {s t u : State} {v w : List HostWord} (hp : Serves p s t v)
    (hq : Serves q t u w) : Serves (p ++ q) s u (v ++ w) where
  runs rest := by
    rw [List.length_append, List.append_assoc]
    exact run_add (hp.runs (q ++ rest)) (hq.runs rest)
  awake := hq.awake
  reads := by rw [hq.reads, hp.reads, List.append_assoc]

/-- A program that is served is a whole run when nothing stands behind it. -/
theorem Serves.runProgram {p : List HostEvent} {s t : State} {words : List HostWord} (h : Serves p s t words) :
    runProgram p s = .next (t.setPending []) := by
  have hrun := h.runs []
  rwa [List.append_nil] at hrun

/-! ## One host line (R107) -/

theorem observedReads_respond_readData (s : State) (w : HostWord) :
    observedReads (s.respond (.readData w)) = observedReads s ++ [w] := List.filterMap_append

theorem observedReads_respond_writeAck (s : State) : observedReads (s.respond .writeAck) = observedReads s :=
  List.filterMap_append.trans (List.append_nil _)

/-- What has been read stands in the answers of the port. -/
theorem observedReads_congr {s t : State} (h : t.port = s.port) : observedReads t = observedReads s := by
  rw [observedReads, observedReads, h]

theorem serves_access {x : Transaction} {s t : State} {words : List HostWord} (hr : s.port.rst = false)
    (hserve : ∀ rest, serveAccess x (s.setPending rest) = .next (t.setPending rest)) (hawake : t.port.rst = false)
    (hreads : observedReads t = observedReads s ++ words) : Serves [.access x] s t words where
  runs rest := run_succ_eq_next.mpr
    ⟨_, (step_access (s := s.setPending ([.access x] ++ rest)) hr rfl).trans (hserve rest), rfl⟩
  awake := hawake
  reads := hreads

/-- A read adds the word of its register to what was read. -/
theorem serves_rd (off : Nat) {s : State} (hr : s.port.rst = false) :
    Serves [rd off] s (s.respond (.readData (readReg (regAt (BitVec.ofNat 9 off)) s)))
      [readReg (regAt (BitVec.ofNat 9 off)) s] := by
  rw [rd_eq]
  refine serves_access hr (fun rest => ?_) hr (observedReads_respond_readData s _)
  rw [serveAccess, readReg_setPending]
  rfl

/-- A write to a register other than `CMD` stores as `writeReg` does. -/
theorem serves_wr {off : Nat} (w : HostWord) {s : State} (hr : s.port.rst = false)
    (hcmd : regAt (BitVec.ofNat 9 off) ≠ .cmd) :
    Serves [wr off w] s ((writeReg (regAt (BitVec.ofNat 9 off)) w s).respond .writeAck) [] := by
  rw [wr_eq]
  refine serves_access hr (fun rest => ?_) (by rw [State.respond_port_rst, writeReg_port, hr]) ?_
  · rw [serveAccess_write_of_ne_cmd _ _ _ hcmd, writeReg_setPending]
    rfl
  · rw [observedReads_respond_writeAck, observedReads_congr (writeReg_port _ w s), List.append_nil]

theorem State.whenConfigured_setPending {f : State → State} (s : State) (es : List HostEvent)
    (hf : f (s.setPending es) = (f s).setPending es) :
    (s.setPending es).whenConfigured f = (s.whenConfigured f).setPending es := by
  cases hconf : s.hash.conf with
  | false =>
    rw [s.whenConfigured_of_unconfigured f hconf, (s.setPending es).whenConfigured_of_unconfigured f hconf]
    rfl
  | true =>
    rw [s.whenConfigured_of_configured f hconf, (s.setPending es).whenConfigured_of_configured f hconf, hf]
    rfl

/-- No command looks at what is pending. -/
theorem exec_setPending {i : Instr} {s t : State} (h : exec i s = .next t) (es : List HostEvent) :
    exec i (s.setPending es) = .next (t.setPending es) := by
  cases i with
  | init =>
    rw [exec, execInit] at h ⊢
    rw [State.setPending_regs]
    cases hlegal : configError s.regs <;> rw [hlegal] at h <;> cases h <;> rfl
  | write n =>
    rw [exec, execWrite] at h ⊢
    by_cases hn : 128 < n
    · rw [if_pos hn] at h ⊢
      cases h
      rfl
    · rw [if_neg hn] at h ⊢
      cases h
      rw [State.whenConfigured_setPending]
      rfl
  | sum =>
    cases h
    rw [exec, execSum, State.whenConfigured_setPending]
    rfl
  | reset =>
    cases h
    rw [exec, execReset, State.whenConfigured_setPending]
    rfl

/-- A line that issues a command runs the command. -/
theorem serves_issue {i : Instr} {s t : State} (hr : s.port.rst = false) (hwf : i.wellFormed = true)
    (h : exec i s = .next t) : Serves [issue i] s (t.respond .writeAck) [] := by
  have hport : t.port = s.port := exec_port h
  rw [issue, wr_eq]
  refine serves_access hr (fun rest => ?_) (by rw [State.respond_port_rst, hport, hr]) ?_
  · rw [serveAccess_write_of_cmd _ _ _ regAt_cmd, runCommand_of_decode (decodeInvertsEncode i hwf), exec_setPending h]
    rfl
  · rw [observedReads_respond_writeAck, observedReads_congr hport, List.append_nil]

/-! ## Loading a byte window (R108) -/

theorem hostByte_packWord (bytes : List Byte) (k : Nat) {j : Nat} (hj : j < 4) :
    hostByte (packWord bytes k) j = bytes[k + j]?.getD 0 := by
  have hword : packWord bytes k = le32 (tabulate fun i : Fin (k + 4) => bytes[i.val]?.getD 0) k := by
    rw [packWord, le32, byteAt_of_lt _ (by omega), byteAt_of_lt _ (by omega), byteAt_of_lt _ (by omega),
      byteAt_of_lt _ (by omega)]
    simp only [getElem_tabulate]
  rw [hword, hostByte_le32 _ _ _ hj, byteAt_of_lt _ (by omega), getElem_tabulate]

/-- The byte window `win` has its words at the offsets from `first` on: a write to word `k` stores there, and leaves `CFG`. -/
def StoresWords {n : Nat} (first : Nat) (win : HostRegs → Vector Byte n) : Prop :=
  ∀ k, 4 * k < n → ∀ (w : HostWord) (s : State),
    regAt (BitVec.ofNat 9 (first + 4 * k)) ≠ .cmd ∧
    win (writeReg (regAt (BitVec.ofNat 9 (first + 4 * k))) w s).regs = storeWord (win s.regs) (4 * k) w ∧
    (writeReg (regAt (BitVec.ofNat 9 (first + 4 * k))) w s).regs.cfg = s.regs.cfg

theorem storesWords_key : StoresWords 0x040 HostRegs.key := by
  intro k hk w s
  obtain ⟨-, -, -, -, -, -, hkey, -⟩ := registerMapOfWindow
  rw [hkey ⟨k, by omega⟩]
  exact ⟨by simp, rfl, rfl⟩

theorem storesWords_din : StoresWords 0x100 HostRegs.din := by
  intro k hk w s
  obtain ⟨-, -, -, -, -, -, -, -, hdin, -⟩ := registerMapOfWindow
  rw [hdin ⟨k, by omega⟩]
  exact ⟨by simp, rfl, rfl⟩

section
variable {n first : Nat} {win : HostRegs → Vector Byte n}

/-- Writing the first `m` words of a window stores the first `4m` bytes, padded with zeros. -/
theorem serves_packedWords (hwin : StoresWords first win) (bytes : List Byte) {m : Nat} (hm : 4 * m ≤ n) {s : State}
    (hr : s.port.rst = false) :
    ∃ t, Serves ((List.range m).map fun k => wr (first + 4 * k) (packWord bytes (4 * k))) s t [] ∧ t.hash = s.hash ∧
      t.regs.cfg = s.regs.cfg ∧ ∀ i (hi : i < n), i < 4 * m → (win t.regs)[i] = bytes[i]?.getD 0 := by
  induction m with
  | zero => exact ⟨s, serves_nil hr, rfl, rfl, fun i _ hi => absurd hi (Nat.not_lt_zero i)⟩
  | succ m ih =>
    obtain ⟨t, ht, hhash, hcfg, hbytes⟩ := ih (by omega)
    obtain ⟨hcmd, hstore, hkeep⟩ := hwin m (by omega) (packWord bytes (4 * m)) t
    rw [List.range_succ, List.map_append]
    refine ⟨_, ht.append (serves_wr _ ht.awake hcmd), (writeReg_hash _ _ t).trans hhash, hkeep.trans hcfg,
      fun i hi him => ?_⟩
    rw [State.respond_regs, hstore, getElem_storeWord]
    split
    · have hplace : 4 * m + (i - 4 * m) = i := by omega
      rw [hostByte_packWord _ _ (by omega), hplace]
    · exact hbytes i hi (by omega)

/-- Loading a window stores the bytes from its first byte on. -/
theorem serves_loadWindow (hwin : StoresWords first win) {bytes : List Byte} (hlen : bytes.length ≤ n) (hn : 4 ∣ n)
    {s : State} (hr : s.port.rst = false) :
    ∃ t, Serves (loadWindow first bytes) s t [] ∧ t.hash = s.hash ∧ t.regs.cfg = s.regs.cfg ∧
      (win t.regs).toList.take bytes.length = bytes := by
  obtain ⟨t, ht, hhash, hcfg, hbytes⟩ :=
    serves_packedWords hwin bytes (m := (bytes.length + 3) / 4) (by omega) hr
  refine ⟨t, ht, hhash, hcfg, List.ext_getElem ?_ fun i _ hi => ?_⟩
  · rw [List.length_take, Vector.length_toList, Nat.min_eq_left hlen]
  · rw [List.getElem_take, Vector.getElem_toList, hbytes i (by omega) (by omega), List.getElem?_eq_getElem hi,
      Option.getD_some]

end

/-! ## `CONFIG` (R108) -/

/-- The word `CONFIG` writes to `CFG` for a digest request and a key length, with no salt. -/
def configWord (ds kl : Nat) : HostWord := BitVec.ofNat 32 (ds ||| (kl <<< 8) ||| (0 <<< 16))

theorem configMacro_without_salt (ds : Nat) (key : List Byte) :
    configMacro ds key [] = [wr 0x008 (configWord ds key.length)] ++ loadWindow 0x040 key :=
  congrArg (wr 0x008 (configWord ds key.length) :: ·) (List.append_nil _)

/-- The fields of `CFG` once that word is stored. -/
theorem configWord_fields {ds kl : Nat} (hds : ds ≤ 255) (hkl : kl ≤ 255) {r : HostRegs}
    (h : r.cfg = (configWord ds kl).extractLsb' 0 24) :
    digestRequest r = BitVec.ofNat 8 ds ∧ (keyLength r).toNat = kl ∧ (saltLength r).toNat = 0 := by
  have hword : configWord ds kl = BitVec.ofNat 32 (kl * 256 + ds) := by
    have hds' : ds < 2 ^ 8 := by omega
    rw [configWord, Nat.zero_shiftLeft, Nat.or_zero, Nat.or_comm, ← Nat.shiftLeft_add_eq_or_of_lt hds',
      Nat.shiftLeft_eq]
  have hcfg : r.cfg.toNat = kl * 256 + ds := by
    rw [h, hword, BitVec.extractLsb'_toNat, BitVec.toNat_ofNat, Nat.shiftRight_zero]
    omega
  refine ⟨?request, ?keyLength, ?saltLength⟩
  case request =>
    apply BitVec.eq_of_toNat_eq
    rw [digestRequest, BitVec.extractLsb'_toNat, hcfg, Nat.shiftRight_zero, BitVec.toNat_ofNat]
    omega
  case keyLength =>
    rw [keyLength, BitVec.extractLsb'_toNat, hcfg, Nat.shiftRight_eq_div_pow]
    omega
  case saltLength =>
    rw [saltLength, BitVec.extractLsb'_toNat, hcfg, Nat.shiftRight_eq_div_pow]
    omega

/-- `CONFIG` stages the digest request, the key length, no salt, and the key. -/
theorem serves_configMacro {ds : Nat} {key : List Byte} (hds : ds ≤ 255) (hkey : key.length ≤ 64) {s : State}
    (hr : s.port.rst = false) :
    ∃ t, Serves (configMacro ds key []) s t [] ∧ digestRequest t.regs = BitVec.ofNat 8 ds ∧
      (keyLength t.regs).toNat = key.length ∧ (saltLength t.regs).toNat = 0 ∧
      t.regs.key.toList.take key.length = key := by
  have hreg : regAt (BitVec.ofNat 9 0x008) = .cfg := by decide
  have hwr := serves_wr (off := 0x008) (configWord ds key.length) hr (by rw [hreg]; decide)
  rw [hreg] at hwr
  obtain ⟨t, hload, -, hcfg, hbytes⟩ := serves_loadWindow storesWords_key hkey (by decide) hwr.awake
  obtain ⟨hdreq, hkl, hsl⟩ := configWord_fields hds (by omega) hcfg
  rw [configMacro_without_salt]
  exact ⟨t, hwr.append hload, hdreq, hkl, hsl, hbytes⟩

/-- The size that `INIT` sets for a request (R130). -/
theorem clampDigestSize_ofNat {ds : Nat} (h : ds ≤ 255) :
    clampDigestSize (BitVec.ofNat 8 ds) = if 1 ≤ ds ∧ ds ≤ 64 then BitVec.ofNat 7 ds else 64#7 := by
  have hmod : ds % 2 ^ 8 = ds := by omega
  have hwidth : (BitVec.ofNat 8 ds).setWidth 7 = BitVec.ofNat 7 ds := by
    apply BitVec.eq_of_toNat_eq
    rw [BitVec.toNat_setWidth, BitVec.toNat_ofNat, BitVec.toNat_ofNat, hmod]
  rw [clampDigestSize, BitVec.toNat_ofNat, hmod, hwidth]

/-! ## `ABSORB` and `ABSORB_ALL` (R108) -/

theorem length_le_of_mem_chunks {fuel : Nat} {bytes c : List Byte} (h : c ∈ chunks fuel bytes) : c.length ≤ 128 := by
  induction fuel generalizing bytes with
  | zero => simp [chunks] at h
  | succ fuel ih =>
    cases bytes with
    | nil => simp [chunks] at h
    | cons b bytes =>
      rcases List.mem_cons.mp h with rfl | h
      · exact List.length_take_le _ _
      · exact ih h

theorem flatten_chunks {fuel : Nat} {bytes : List Byte} (h : bytes.length ≤ fuel) :
    (chunks fuel bytes).flatten = bytes := by
  induction fuel generalizing bytes with
  | zero =>
    rw [List.eq_nil_of_length_eq_zero (Nat.le_zero.mp h)]
    rfl
  | succ fuel ih =>
    cases bytes with
    | nil => rfl
    | cons b bytes =>
      rw [List.length_cons] at h
      rw [chunks, List.flatten_cons, ih (by rw [List.length_drop, List.length_cons]; omega), List.take_append_drop]

/-- `ABSORB` loads the bytes into `DIN` and absorbs them. -/
theorem serves_absorbMacro {c : List Byte} (hlen : c.length ≤ 128) {s : State} (hr : s.port.rst = false)
    (hconf : s.hash.conf = true) : ∃ t, Serves (absorbMacro c) s t [] ∧ t.hash = s.hash.absorb c := by
  obtain ⟨a, hload, hhash, -, hbytes⟩ := serves_loadWindow storesWords_din hlen (by decide) hr
  have hinput : inputBytes c.length a.regs = c := hbytes
  have hwrite : exec (.write c.length) a = .next (a.setHash (a.hash.absorb c)).completeOk := by
    rw [exec, execWrite, if_neg (Nat.not_lt.mpr hlen), State.whenConfigured_of_configured _ a (hhash ▸ hconf), hinput]
  have hwf : (Instr.write c.length).wellFormed = true := decide_eq_true (by omega)
  exact ⟨_, hload.append (serves_issue hload.awake hwf hwrite), congrArg (HashState.absorb · c) hhash⟩

theorem serves_absorbMacros (cs : List (List Byte)) (hlen : ∀ c ∈ cs, c.length ≤ 128) {s : State}
    (hr : s.port.rst = false) (hconf : s.hash.conf = true) :
    ∃ t, Serves (cs.flatMap absorbMacro) s t [] ∧ t.hash = s.hash.absorb cs.flatten := by
  induction cs generalizing s with
  | nil => exact ⟨s, serves_nil hr, rfl⟩
  | cons c cs ih =>
    obtain ⟨a, ha, hhash⟩ := serves_absorbMacro (hlen c List.mem_cons_self) hr hconf
    obtain ⟨t, ht, hhash'⟩ := ih (fun d hd => hlen d (List.mem_cons_of_mem c hd)) ha.awake
      (by rw [hhash, HashState.absorb_conf, hconf])
    refine ⟨t, ha.append ht, ?_⟩
    rw [hhash', hhash, List.flatten_cons, HashState.absorb_append]

theorem serves_absorbAllMacro (msg : List Byte) {s : State} (hr : s.port.rst = false) (hconf : s.hash.conf = true) :
    ∃ t, Serves (absorbAllMacro msg) s t [] ∧ t.hash = s.hash.absorb msg := by
  obtain ⟨t, ht, hhash⟩ := serves_absorbMacros (chunks msg.length msg) (fun _ => length_le_of_mem_chunks) hr hconf
  rw [flatten_chunks (Nat.le_refl _)] at hhash
  exact ⟨t, ht, hhash⟩

/-! ## `DIGEST` (R108) -/

/-- The sixteen words of a digest window. -/
def digestWords (dout : Vector Byte 64) : List HostWord := (List.range 16).map fun k => le32 dout (4 * k)

theorem serves_readDigest (ks : List Nat) (hks : ∀ k ∈ ks, k < 16) {s : State} (hr : s.port.rst = false) :
    ∃ t, Serves (ks.map fun k => rd (0x180 + 4 * k)) s t (ks.map fun k => le32 s.regs.dout (4 * k)) := by
  induction ks generalizing s with
  | nil => exact ⟨s, serves_nil hr⟩
  | cons k ks ih =>
    obtain ⟨-, -, -, -, -, -, -, -, -, hdout, -⟩ := registerMapOfWindow
    have hrd := serves_rd (0x180 + 4 * k) hr
    rw [hdout ⟨k, hks k List.mem_cons_self⟩] at hrd
    obtain ⟨t, ht⟩ := ih (fun j hj => hks j (List.mem_cons_of_mem k hj)) hrd.awake
    exact ⟨t, hrd.append ht⟩

/-- `DIGEST` reads the digest of what has been absorbed. -/
theorem serves_digestMacro {s : State} (hr : s.port.rst = false) (hconf : s.hash.conf = true) :
    ∃ t, Serves digestMacro s t (digestWords (digestWindow s.hash.dsize (finalChain s.hash))) := by
  have hsum : exec .sum s = .next (s.setDigest (digestWindow s.hash.dsize (finalChain s.hash))).completeOk := by
    rw [exec, execSum, State.whenConfigured_of_configured _ _ hconf]
  have hissue := serves_issue hr rfl hsum
  obtain ⟨t, ht⟩ := serves_readDigest (List.range 16) (fun _ => List.mem_range.mp) hissue.awake
  exact ⟨t, hissue.append ht⟩

/-- The first `m` words of a byte window hold its first `4m` bytes. -/
theorem flatMap_le32 {n : Nat} (b : Vector Byte n) {m : Nat} (h : 4 * m ≤ n) :
    ((List.range m).flatMap fun k => [byteAt b (4 * k), byteAt b (4 * k + 1), byteAt b (4 * k + 2), byteAt b (4 * k + 3)]) =
      b.toList.take (4 * m) := by
  induction m with
  | zero => rfl
  | succ m ih =>
    have hbyte (i : Nat) (hi : i < n) : b.toList.take (i + 1) = b.toList.take i ++ [byteAt b i] := by
      rw [List.take_succ_eq_append_getElem (by rwa [Vector.length_toList]), Vector.getElem_toList, byteAt_of_lt b hi]
    rw [List.range_succ, List.flatMap_append, ih (by omega), Nat.mul_succ, hbyte _ (by omega), hbyte _ (by omega),
      hbyte _ (by omega), hbyte _ (by omega), List.append_assoc, List.append_assoc, List.append_assoc]
    rfl

theorem assembleDigest_digestWords (dout : Vector Byte 64) : assembleDigest (digestWords dout) 64 = dout.toList := by
  have hword (k : Nat) : [hostByte (le32 dout (4 * k)) 0, hostByte (le32 dout (4 * k)) 1,
      hostByte (le32 dout (4 * k)) 2, hostByte (le32 dout (4 * k)) 3] =
      [byteAt dout (4 * k), byteAt dout (4 * k + 1), byteAt dout (4 * k + 2), byteAt dout (4 * k + 3)] := by
    rw [hostByte_le32 _ _ _ (by decide), hostByte_le32 _ _ _ (by decide), hostByte_le32 _ _ _ (by decide),
      hostByte_le32 _ _ _ (by decide), Nat.add_zero]
  rw [assembleDigest, digestWords, List.flatMap_map]
  simp only [hword]
  rw [flatMap_le32 dout (by decide), List.take_take, List.take_of_length_le (by rw [Vector.length_toList]; decide)]

/-- The digest window is the digest and then zeros (R236, R237). -/
theorem toList_digestWindow {d : BitVec 7} (hd : d.toNat ≤ 64) (h : Vector Word 8) :
    (digestWindow d h).toList = (serialize h).toList.take d.toNat ++ List.replicate (64 - d.toNat) 0 := by
  have hlen : ((serialize h).toList.take d.toNat).length = d.toNat := by
    rw [List.length_take, Vector.length_toList, Nat.min_eq_left hd]
  apply List.ext_getElem
  · rw [List.length_append, hlen, List.length_replicate, Vector.length_toList]
    omega
  · intro i hi _
    rw [Vector.length_toList] at hi
    rw [Vector.getElem_toList, getElem_digestWindow _ _ _ hi]
    split
    · rw [List.getElem_append_left (by omega), List.getElem_take, Vector.getElem_toList]
    · rw [List.getElem_append_right (by omega), List.getElem_replicate]

/-! ## `MAC` (R108) -/

/-- `MAC` reads the digest window of the reference digest: `CONFIG` stages the request and the key, `INIT` starts from them,
`ABSORB_ALL` absorbs the message, and `DIGEST` reads what `SUM` leaves. -/
theorem serves_macMacro {key : List Byte} (hkey : key.length ≤ 64) (msg : List Byte) {ds : Nat} (hds : ds ≤ 255)
    {s : State} (hr : s.port.rst = false) :
    ∃ t chain, Serves (macMacro key msg ds) s t (digestWords (digestWindow (clampDigestSize (BitVec.ofNat 8 ds)) chain)) ∧
      serialize chain = referenceDigest (clampDigestSize (BitVec.ofNat 8 ds)) key [] msg := by
  obtain ⟨a, hconfig, hdreq, hkl, hsl, hbytes⟩ := serves_configMacro hds hkey hr
  have hkey' : (keyLength a.regs).toNat ≤ 64 := hkl ▸ hkey
  have hsalt' : (saltLength a.regs).toNat ≤ 16 := by rw [hsl]; decide
  obtain ⟨b, hinit, hconf, hdsize, habsorbed⟩ := execInit_of_legal (s := a) hkey' hsalt'
  have hissue := serves_issue (i := .init) hconfig.awake rfl hinit
  obtain ⟨c, habsorb, hhash⟩ := serves_absorbAllMacro msg hissue.awake hconf
  rw [State.respond_hash] at hhash
  obtain ⟨t, hdigest⟩ := serves_digestMacro habsorb.awake (by rw [hhash, HashState.absorb_conf, hconf])
  have hchain : finalChain c.hash = referenceChain (configuredChain a.regs) (keyStream a.regs ++ msg) := by
    rw [hhash]
    exact (habsorbed.absorb msg).finalChain_eq
  rw [hchain, hhash, HashState.absorb_dsize, hdsize, hdreq] at hdigest
  refine ⟨t, _, ((hconfig.append hissue).append habsorb).append hdigest, ?_⟩
  rw [← referenceDigest_of_config hkey' hsalt' msg, hdreq, hkl, hbytes, hsl, List.take_zero]

/-- Settles O57: the words read assemble to the digest window, which is the digest followed by zeros. -/
theorem macProgramReadsBlockwiseDigest : Obligations.MacProgramReadsBlockwiseDigest := by
  intro s key msg ds hr hkey hds size digest
  have hsize : clampDigestSize (BitVec.ofNat 8 ds) = size := clampDigestSize_ofNat hds
  have hsize64 : size.toNat ≤ 64 := hsize ▸ (clampDigestSize_range _).2
  obtain ⟨t, chain, hserves, hchain⟩ := serves_macMacro hkey msg hds hr
  rw [hsize] at hserves hchain
  have hwindow : assembleDigest (digestWords (digestWindow size chain)) 64 =
      digest ++ List.replicate (64 - size.toNat) 0 := by
    rw [assembleDigest_digestWords, toList_digestWindow hsize64, hchain]
  refine ⟨t.setPending [], digestWords (digestWindow size chain), hserves.runProgram,
    (List.length_map _).trans List.length_range, hserves.reads, hwindow, fun h1 h64 => ?_⟩
  have hlen : digest.length = ds := by
    have hds' : size.toNat = ds := by
      rw [show size = BitVec.ofNat 7 ds from if_pos ⟨h1, h64⟩, BitVec.toNat_ofNat]
      omega
    rw [List.length_take, Vector.length_toList, hds', Nat.min_eq_left h64]
  calc assembleDigest (digestWords (digestWindow size chain)) ds
      = (assembleDigest (digestWords (digestWindow size chain)) 64).take ds := by
        rw [assembleDigest, assembleDigest, List.take_take, Nat.min_eq_left h64]
    _ = digest := by rw [hwindow, List.take_left' hlen]

end Sys2Proof.Machine
end

section
/-! PROOFS. `INIT` and `RESET`: the checks and the chain values of a configuration, the hash state both commands start, what they
leave, and the return of `RESET` to the state of the last `INIT` (spec/40_param_block.md, spec/44_reset_cmd.md). -/

namespace Sys2Proof.Machine

/-! ## The checks of `INIT` (R131, R132) -/

section
variable {r : HostRegs}

theorem configError_of_long_key (hk : 64 < (keyLength r).toNat) : configError r = some .keyTooLarge := by
  rw [configError, if_pos hk]

theorem configError_of_long_salt (hk : (keyLength r).toNat ≤ 64) (hs : 16 < (saltLength r).toNat) :
    configError r = some .saltTooLarge := by
  rw [configError, if_neg (Nat.not_lt.mpr hk), if_pos hs]

theorem configError_of_legal (hk : (keyLength r).toNat ≤ 64) (hs : (saltLength r).toNat ≤ 16) :
    configError r = none := by
  rw [configError, if_neg (Nat.not_lt.mpr hk), if_neg (Nat.not_lt.mpr hs)]

end

theorem exec_init_of_error {s : State} {c : ResultCode} (h : configError s.regs = some c) :
    exec .init s = .next (s.raiseCmdError c) := by
  rw [exec, execInit, h]

/-- Settles O25: the key length is checked first, then the salt length, and an error code is all that is stored. -/
theorem initRejectsLongKeyOrSalt : Obligations.InitRejectsLongKeyOrSalt :=
  ⟨rfl, rfl, fun _ => ⟨fun hk => exec_init_of_error (configError_of_long_key hk),
    fun hk hs => exec_init_of_error (configError_of_long_salt hk hs)⟩⟩

/-! ## The size of the digest (R130) -/

theorem toNat_clampDigestSize (d : Byte) :
    (clampDigestSize d).toNat = if 1 ≤ d.toNat ∧ d.toNat ≤ 64 then d.toNat else 64 := by
  rw [clampDigestSize]
  split
  · rw [BitVec.toNat_setWidth, Nat.mod_eq_of_lt (by omega)]
  · rfl

/-- On a configured block `SIZE` reads `DSIZE` (R35). -/
theorem toNat_readReg_size {s : State} (hconf : s.hash.conf = true) : (readReg .size s).toNat = s.hash.dsize.toNat := by
  rw [readReg, sizeWord, if_pos hconf, BitVec.toNat_setWidth_of_le (by decide)]

/-- Settles O26: a successful `INIT` stores the clamped request in `DSIZE`, and `SIZE` reads it. -/
theorem digestSizeIsClamped : Obligations.DigestSizeIsClamped := by
  intro s hk hs
  obtain ⟨t, ht, hconf, hdsize, -⟩ := execInit_of_legal (s := s) hk hs
  refine ⟨t, ht, ?_⟩
  rw [toNat_readReg_size hconf, hdsize, toNat_clampDigestSize]
  rfl

/-! ## The words of the parameter block (R133, R134) -/

theorem le64_eq_zero {n : Nat} {b : Vector Byte n} {k : Nat} (h : ∀ j, j < 8 → byteAt b (k + j) = 0) : le64 b k = 0 := by
  have h0 := h 0 (by omega)
  rw [Nat.add_zero] at h0
  rw [le64, h0, h 1 (by omega), h 2 (by omega), h 3 (by omega), h 4 (by omega), h 5 (by omega), h 6 (by omega),
    h 7 (by omega)]
  rfl

/-- The first word of a parameter block, its bytes joined as numbers beside the constants 1, 1 (R133). -/
theorem append_header (kl d : Byte) :
    (0#8 ++ 0#8 ++ 0#8 ++ 0#8 ++ 1#8 ++ 1#8 ++ kl ++ d : Word) =
      0x0000000001010000#64 ||| (kl.setWidth 64 <<< 8) ||| d.setWidth 64 := by
  have hconst : 0x0000000001010000#64 = 0x000000000101#48 ++ 0#8 ++ 0#8 := by decide
  have hkl : kl.setWidth 64 <<< 8 = 0#48 ++ kl ++ 0#8 := by
    apply BitVec.eq_of_toNat_eq
    simp only [toNat_append_eq_add, BitVec.toNat_shiftLeft, BitVec.toNat_setWidth, BitVec.toNat_ofNat, Nat.shiftLeft_eq]
    omega
  have hd : d.setWidth 64 = 0#48 ++ 0#8 ++ d := by
    apply BitVec.eq_of_toNat_eq
    simp only [toNat_append_eq_add, BitVec.toNat_setWidth, BitVec.toNat_ofNat]
    omega
  have hor : 0x000000000101#48 ++ 0#8 ++ 0#8 ||| 0#48 ++ kl ++ 0#8 ||| 0#48 ++ 0#8 ++ d = 0x000000000101#48 ++ kl ++ d := by
    simp only [BitVec.or_append, BitVec.or_zero, BitVec.zero_or]
  rw [hconst, hkl, hd]
  exact hor.symm

/-- The salt bytes in use, padded with zeros (R133). -/
def usedSalt (sl : Nat) (salt : Vector Byte 16) : Vector Byte 16 :=
  tabulate fun i : Fin 16 => if i.val < sl then salt[i] else 0

section
variable (ds : BitVec 7) (kl : Byte) {sl : Nat} (salt : Vector Byte 16)

theorem byteAt_paramBlock {i : Nat} (h : i < 128) :
    byteAt (paramBlock ds kl sl salt) i =
      if i = 0 then ds.setWidth 8 else if i = 1 then kl else if i = 2 then 1 else if i = 3 then 1
      else if 32 ≤ i ∧ i < 32 + sl then byteAt salt (i - 32) else 0 := by
  rw [byteAt_of_lt _ h, getElem_paramBlock]

theorem byteAt_paramBlock_eq_zero {i : Nat} (h : i < 128) (h4 : 4 ≤ i) (hsalt : i < 32 ∨ 32 + sl ≤ i) :
    byteAt (paramBlock ds kl sl salt) i = 0 := by
  rw [byteAt_paramBlock _ _ _ h, if_neg (by omega), if_neg (by omega), if_neg (by omega), if_neg (by omega),
    if_neg (by omega)]

/-- From byte 32 on stand the salt bytes in use (R133). -/
theorem byteAt_paramBlock_salt {i : Nat} (h : i < 16) :
    byteAt (paramBlock ds kl sl salt) (32 + i) = byteAt (usedSalt sl salt) i := by
  rw [byteAt_of_lt (usedSalt sl salt) h, usedSalt, getElem_tabulate]
  by_cases hi : i < sl
  · rw [byteAt_paramBlock _ _ _ (by omega), if_neg (by omega), if_neg (by omega), if_neg (by omega), if_neg (by omega),
      if_pos (by omega), if_pos hi, Nat.add_sub_cancel_left, byteAt_of_lt _ h]
    rfl
  · rw [if_neg hi, byteAt_paramBlock_eq_zero _ _ _ (by omega) (by omega) (by omega)]

theorem le64_paramBlock_header :
    le64 (paramBlock ds kl sl salt) 0 =
      0x0000000001010000#64 ||| (kl.setWidth 64 <<< 8) ||| ds.setWidth 64 := by
  have hzero {i : Nat} (h4 : 4 ≤ i) (h8 : i < 8) : byteAt (paramBlock ds kl sl salt) i = 0 :=
    byteAt_paramBlock_eq_zero _ _ _ (by omega) h4 (by omega)
  have h0 : byteAt (paramBlock ds kl sl salt) 0 = ds.setWidth 8 := byteAt_paramBlock _ _ _ (by decide)
  have h1 : byteAt (paramBlock ds kl sl salt) (0 + 1) = kl := byteAt_paramBlock _ _ _ (by decide)
  have h2 : byteAt (paramBlock ds kl sl salt) (0 + 2) = 1 := byteAt_paramBlock _ _ _ (by decide)
  have h3 : byteAt (paramBlock ds kl sl salt) (0 + 3) = 1 := byteAt_paramBlock _ _ _ (by decide)
  have hds : ds.setWidth 64 = (ds.setWidth 8).setWidth 64 := (BitVec.setWidth_setWidth (by omega)).symm
  rw [le64, hzero (by omega) (by omega), hzero (by omega) (by omega), hzero (by omega) (by omega),
    hzero (by omega) (by omega), h0, h1, h2, h3, hds]
  exact append_header kl (ds.setWidth 8)

theorem le64_paramBlock_salt {k : Nat} (h : k + 8 ≤ 16) :
    le64 (paramBlock ds kl sl salt) (32 + k) = le64 (usedSalt sl salt) k :=
  le64_congr fun j hj => by rw [Nat.add_assoc, byteAt_paramBlock_salt _ _ _ (by omega)]

/-- A word that lies between the header and the salt, or behind the salt, is zero (R133). -/
theorem le64_paramBlock_eq_zero {k : Nat} (h : k + 8 ≤ 128) (h4 : 4 ≤ k) (hsalt : k + 8 ≤ 32 ∨ 32 + sl ≤ k) :
    le64 (paramBlock ds kl sl salt) k = 0 :=
  le64_eq_zero fun _ _ => byteAt_paramBlock_eq_zero _ _ _ (by omega) (by omega) (by omega)

end

/-- A zero word of the parameter block leaves the chain value at `IV` (R134). -/
theorem getElem_initialChain_of_zero {p : Vector Byte 128} {i : Nat} (hi : i < 8) (h : le64 p (8 * i) = 0) :
    (initialChain p)[i] = iv[i] := by
  rw [getElem_initialChain, h]
  exact BitVec.xor_zero

/-- Settles O27: the header is word 0 of the parameter block, the salt its words 4 and 5, and the other words are zero. -/
theorem chainOfConfiguration : Obligations.ChainOfConfiguration := by
  intro ds kl sl salt hsl h used
  have hiv {i : Nat} (hi : i < 8) (hword : (1 ≤ i ∧ i < 4) ∨ 6 ≤ i) : h[i] = iv[i] :=
    getElem_initialChain_of_zero hi (le64_paramBlock_eq_zero _ _ _ (by omega) (by omega) (by omega))
  refine ⟨?header, hiv (by decide) (by decide), hiv (by decide) (by decide), hiv (by decide) (by decide), ?saltLow,
    ?saltHigh, hiv (by decide) (by decide), hiv (by decide) (by decide)⟩
  case header => rw [getElem_initialChain, le64_paramBlock_header]
  case saltLow =>
    rw [getElem_initialChain, le64_paramBlock_salt ds kl salt (k := 0) (by decide)]
    rfl
  case saltHigh =>
    rw [getElem_initialChain, le64_paramBlock_salt ds kl salt (k := 8) (by decide)]
    rfl

/-! ## The hash state that `INIT` and `RESET` start (R140, R260) -/

/-- A hash started at the chain values `h`, its key absorbed: the key block fills the buffer and starts no compression (R137). -/
theorem HashState.absorbKey_start (h : Vector Word 8) (x : HashState) :
    (x.start h).absorbKey = { x with
      h := h, t := 0, buf := if x.keyed then x.kb else zeros 128, off := if x.keyed then 128 else 0 } := by
  rw [HashState.absorbKey_of_empty _ (HashState.start_off h x), HashState.start_keyed, HashState.start_kb]
  by_cases hk : x.keyed = true
  · rw [if_pos hk, if_pos hk, if_pos hk]
    rfl
  · rw [if_neg hk, if_neg hk, if_neg hk]
    rfl

/-- What `INIT` leaves does not depend on the hash state it finds (R140). -/
def initialHash (r : HostRegs) : HashState where
  conf := true
  h := configuredChain r
  hinit := configuredChain r
  t := 0
  buf := if (keyLength r).toNat = 0 then zeros 128 else keyBlock (keyLength r).toNat r.key
  off := if (keyLength r).toNat = 0 then 0 else 128
  keyed := decide (0 < (keyLength r).toNat)
  kb := keyBlock (keyLength r).toNat r.key
  dsize := clampDigestSize (digestRequest r)

/-- The same state, started from its own snapshot: this is all that `RESET` does (R261). -/
theorem initialHash_eq_restart (r : HostRegs) :
    initialHash r = ((initialHash r).start (initialHash r).hinit).absorbKey := by
  rw [HashState.absorbKey_start, initialHash]
  by_cases hk : (keyLength r).toNat = 0 <;> simp [hk, Nat.pos_iff_ne_zero]

/-- The snapshot is taken of the configured chain values, since absorbing the key compresses nothing (R138). -/
theorem absorbKey_takeSnapshot_eq_initialHash (r : HostRegs) (x : HashState) :
    (x.configure r).absorbKey.takeSnapshot = initialHash r := by
  rw [HashState.absorbKey_of_empty _ (HashState.configure_off r x), HashState.configure_keyed, initialHash]
  by_cases hk : (keyLength r).toNat = 0
  · rw [if_neg (by simp [hk]), if_pos hk, if_pos hk]
    rfl
  · rw [if_pos (by simpa using Nat.pos_of_ne_zero hk), if_neg hk, if_neg hk]
    rfl

/-- On a legal configuration `INIT` leaves that state, clears `DOUT` and changes no other register (R140). -/
theorem exec_init_of_no_error {s : State} (hlegal : configError s.regs = none) :
    exec .init s = .next ((s.setHash (initialHash s.regs)).setDigest (zeros 64)).completeOk := by
  rw [exec, execInit, hlegal, absorbKey_takeSnapshot_eq_initialHash]

/-- An `INIT` that reports no error is one on a legal configuration. -/
theorem exec_init_of_ok {s t : State} (h : exec .init s = .next t) (hok : t.err = .ok) :
    t = ((s.setHash (initialHash s.regs)).setDigest (zeros 64)).completeOk := by
  rcases execInit_cases s with ⟨c, -, hc, herror⟩ | ⟨hlegal, -⟩
  · cases h.symm.trans herror
    exact absurd hok hc
  · exact Host.Outcome.next.inj (h.symm.trans (exec_init_of_no_error hlegal))

/-- Settles O24: the state is `initialHash`, and its key block is `keyBlock`, byte by byte. -/
theorem initSetsUpConfiguredHash : Obligations.InitSetsUpConfiguredHash := by
  intro s dreq kl sl ds h hk hs
  refine ⟨keyBlock kl.toNat s.regs.key, fun i hi => ?below, fun i hi => ?beyond, rfl, ?state⟩
  case below =>
    rw [getElem_keyBlock, if_pos hi, byteAt_of_lt _ i.isLt]
    rfl
  case beyond => exact (getElem_keyBlock _ _ _ i.isLt).trans (if_neg (Nat.not_lt.mpr hi))
  case state =>
    have hzero : kl = 0 ↔ kl.toNat = 0 := BitVec.toNat_eq
    simp only [hzero]
    exact exec_init_of_no_error (configError_of_legal hk hs)

/-! ## What a command leaves of the registers (R139, R260) -/

/-- Of the staging and output registers a command writes `DOUT` at most. -/
theorem exec_regs {i : Instr} {s t : State} (h : exec i s = .next t) : ∃ d, t.regs = { s.regs with dout := d } := by
  rcases exec_cases h with ⟨c, -, rfl⟩ | ⟨-, -, rfl⟩ | ⟨n, -, -, -, rfl⟩ | ⟨-, -, rfl⟩ | ⟨-, -, rfl⟩
  · exact ⟨s.regs.dout, rfl⟩
  · exact ⟨zeros 64, rfl⟩
  · exact ⟨s.regs.dout, rfl⟩
  · exact ⟨_, rfl⟩
  · exact ⟨zeros 64, rfl⟩

/-- The other registers of the window show the staging registers or a constant (R281). -/
theorem readReg_of_staging {s t : State} {d : Vector Byte 64} (h : t.regs = { s.regs with dout := d }) {r : WindowReg}
    (hstatus : r ≠ .status) (hsize : r ≠ .size) (hcnt : ∀ k, r ≠ .cnt k) (hdout : ∀ k, r ≠ .dout k) :
    readReg r t = readReg r s := by
  cases r with
  | status => exact absurd rfl hstatus
  | size => exact absurd rfl hsize
  | cnt k => exact absurd rfl (hcnt k)
  | dout k => exact absurd rfl (hdout k)
  | cmd | blksz | key | reserved => rfl
  | cfg | salt | din => rw [readReg, h, readReg]

theorem readReg_size_congr {s t : State} (h : SameConfiguration t.hash s.hash) :
    readReg .size t = readReg .size s := by
  obtain ⟨hconf, -, -, -, hdsize⟩ := h
  rw [readReg, readReg, sizeWord, sizeWord, hconf, hdsize]

/-- Settles O45: both commands write `DOUT` at most, and `RESET` keeps the configuration. -/
theorem initAndResetFrame : Obligations.InitAndResetFrame := by
  refine ⟨fun i s t _ h => ?frame, fun s t h => ?reset⟩
  case frame =>
    obtain ⟨d, hregs⟩ := exec_regs h
    refine ⟨?_, ?_, ?_, ?_, exec_port h, fun r => readReg_of_staging hregs⟩ <;> rw [hregs]
  case reset =>
    have hsame : SameConfiguration t.hash s.hash := exec_sameConfiguration (by decide) h
    have hsize := readReg_size_congr hsame
    obtain ⟨hconf, hhinit, hkeyed, hkb, hdsize⟩ := hsame
    exact ⟨hconf, hhinit, hkeyed, hkb, hdsize, hsize⟩

/-! ## The return of `RESET` to the state of the last `INIT` (R261) -/

theorem SameConfiguration.trans {x y z : HashState} (hxy : SameConfiguration x y) (hyz : SameConfiguration y z) :
    SameConfiguration x z := by
  obtain ⟨hconf, hhinit, hkeyed, hkb, hdsize⟩ := hxy
  obtain ⟨hconf', hhinit', hkeyed', hkb', hdsize'⟩ := hyz
  exact ⟨hconf.trans hconf', hhinit.trans hhinit', hkeyed.trans hkeyed', hkb.trans hkb', hdsize.trans hdsize'⟩

/-- What `RESET` starts depends on the configuration only, not on `H`, `T`, `BUF` and `OFF` (R260). -/
theorem SameConfiguration.restart_eq {x y : HashState} (h : SameConfiguration y x) :
    (y.start y.hinit).absorbKey = (x.start x.hinit).absorbKey := by
  cases x
  cases y
  obtain ⟨rfl, rfl, rfl, rfl, rfl⟩ := h
  rfl

theorem runCommand_sameConfiguration {w : HostWord} {s t : State} (hw : decode w ≠ .ok .init)
    (h : runCommand w s = .next t) : SameConfiguration t.hash s.hash ∧ t.port = s.port := by
  rw [runCommand] at h
  cases hd : decode w with
  | ok i =>
    rw [hd] at h
    exact ⟨exec_sameConfiguration (fun hi => hw (hi ▸ hd)) h, exec_port h⟩
  | error x =>
    rw [hd] at h
    cases h
    exact ⟨.refl _, rfl⟩

/-- An access that issues no `INIT` is answered outside reset, and it keeps the configuration. -/
theorem serveEvent_sameConfiguration {e : HostEvent} {s : State} (hr : s.port.rst = false)
    (he : keepsConfiguration e = true) :
    ∃ t, serveEvent e s = .next t ∧ SameConfiguration t.hash s.hash ∧ t.port.rst = false := by
  cases e with
  | access x =>
    rw [serveEvent_access s x hr]
    cases x with
    | read off => exact ⟨_, rfl, .refl _, hr⟩
    | write off w =>
      by_cases hcmd : regAt off = .cmd
      · obtain ⟨u, hu⟩ := runCommand_answers w s
        obtain ⟨hsame, hport⟩ := runCommand_sameConfiguration (keepsConfiguration_command hcmd he) hu
        rw [serveAccess_write_of_cmd _ _ _ hcmd, hu]
        exact ⟨_, rfl, hsame, by rw [State.respond_port_rst, hport, hr]⟩
      · exact ⟨_, serveAccess_write_of_ne_cmd _ _ _ hcmd, by simpa using SameConfiguration.refl s.hash, by simpa using hr⟩
  | rst level => cases he
  | cutOff x => cases he

theorem step_sameConfiguration {s : State} (hr : s.port.rst = false)
    (hkeeps : ∀ e ∈ s.port.pending, keepsConfiguration e = true) :
    ∃ t, step s = .next t ∧ SameConfiguration t.hash s.hash ∧ t.port.rst = false := by
  cases hp : s.port.pending with
  | nil => exact ⟨s, step_of_nil hp, .refl _, hr⟩
  | cons e rest =>
    rw [step_of_cons hp]
    exact serveEvent_sameConfiguration (s := s.setPending rest) hr (hkeeps e (by rw [hp]; exact List.mem_cons_self))

/-- Outside reset a program of accesses and commands other than `INIT` runs to its end and keeps the configuration. -/
theorem run_sameConfiguration (n : Nat) {s : State} (hr : s.port.rst = false)
    (hkeeps : ∀ e ∈ s.port.pending, keepsConfiguration e = true) :
    ∃ t, run n s = .next t ∧ SameConfiguration t.hash s.hash := by
  induction n generalizing s with
  | zero => exact ⟨s, rfl, .refl _⟩
  | succ n ih =>
    obtain ⟨u, hu, hus, hur⟩ := step_sameConfiguration hr hkeeps
    have hkeeps' : ∀ e ∈ u.port.pending, keepsConfiguration e = true := by
      rw [step_pending hu]
      exact fun e he => hkeeps e (List.mem_of_mem_tail he)
    obtain ⟨t, ht, htu⟩ := ih hur hkeeps'
    exact ⟨t, run_succ_eq_next.mpr ⟨u, hu, ht⟩, htu.trans hus⟩

/-- Settles O46: the program keeps the configuration, and on this configuration `RESET` starts the state that `INIT` left. -/
theorem resetFidelity : Obligations.ResetFidelity := by
  intro s a program hinit hok hr hkeeps
  obtain ⟨b, hrun, hsame⟩ := run_sameConfiguration program.length (s := a.withProgram program) hr hkeeps
  have ha := exec_init_of_ok hinit hok
  have hahash : a.hash = initialHash s.regs := congrArg State.hash ha
  have hadout : a.regs.dout = zeros 64 := congrArg (fun t => t.regs.dout) ha
  rw [State.withProgram_hash, hahash] at hsame
  have hrestart : (b.hash.start b.hash.hinit).absorbKey = initialHash s.regs :=
    hsame.restart_eq.trans (initialHash_eq_restart s.regs).symm
  rcases execReset_cases b with ⟨hnot, -⟩ | ⟨-, hreset⟩
  · obtain ⟨hconf, -⟩ := hsame
    exact absurd (hnot.symm.trans hconf) Bool.false_ne_true
  · exact ⟨b, _, hrun, hreset, hrestart.trans hahash.symm, hok.symm, hadout.symm⟩

end Sys2Proof.Machine
end

section
/-! PROOFS. The compression function: the table of SIGMA, its mixing steps and rounds, and what surrounds them
(spec/41_compression.md R161 to R169). -/

namespace Sys2Proof.Machine

/-! ## The permutations (R161) -/

/-- Settles O55, by computing the ten rows. -/
theorem sigmaRowsArePermutations : Obligations.SigmaRowsArePermutations :=
  ⟨by decide, by decide⟩

/-! ## One mixing step (R162, R163) -/

/-- The four words that step `i` reads and writes (R163). -/
def stepWords (i : Fin 8) : List (Fin 16) := [quad[i].1, quad[i].2.1, quad[i].2.2.1, quad[i].2.2.2]

theorem stepWords_nodup (i : Fin 8) : (stepWords i).Nodup := by
  revert i
  decide

/-- The words of a vector after stores to four distinct places. -/
theorem getElem_set_four {α : Type} {n : Nat} (v : Vector α n) {a b c d : Fin n} (hnodup : [a, b, c, d].Nodup) (x y z u : α) :
    let w := (((v.set a x).set b y).set c z).set d u
    w[a] = x ∧ w[b] = y ∧ w[c] = z ∧ w[d] = u ∧ ∀ k : Fin n, k ≠ a → k ≠ b → k ≠ c → k ≠ d → w[k] = v[k] := by
  simp only [List.nodup_cons, List.mem_cons, List.not_mem_nil, or_false, not_or, Fin.ext_iff] at hnodup
  obtain ⟨⟨hab, hac, had⟩, ⟨hbc, hbd⟩, hcd, -⟩ := hnodup
  simp only [Fin.getElem_fin, Vector.getElem_set, ne_eq, Fin.ext_iff]
  grind

/-- What step `i` leaves: the results of G on its four words, and the other words as they were (R162, R163). -/
theorem getElem_mixStep (m : Vector Word 16) (s : Vector (Fin 16) 16) (v : Vector Word 16) (i : Fin 8) :
    let g := mixG v[quad[i].1] v[quad[i].2.1] v[quad[i].2.2.1] v[quad[i].2.2.2] m[s[2 * i.val]] m[s[2 * i.val + 1]]
    let w := mixStep m s v i
    w[quad[i].1] = g.1 ∧ w[quad[i].2.1] = g.2.1 ∧ w[quad[i].2.2.1] = g.2.2.1 ∧ w[quad[i].2.2.2] = g.2.2.2 ∧
    ∀ k : Fin 16, k ≠ quad[i].1 → k ≠ quad[i].2.1 → k ≠ quad[i].2.2.1 → k ≠ quad[i].2.2.2 → w[k] = v[k] :=
  getElem_set_four v (stepWords_nodup i) _ _ _ _

section
variable (m : Vector Word 16) (s : Vector (Fin 16) 16) (v w : Vector Word 16) {i j : Fin 8} {k : Fin 16}

/-- A step writes its four words only. -/
theorem mixStep_frame (hk : k ∉ stepWords i) : (mixStep m s v i)[k] = v[k] := by
  simp only [stepWords, List.mem_cons, List.not_mem_nil, or_false, not_or] at hk
  obtain ⟨ha, hb, hc, hd⟩ := hk
  obtain ⟨-, -, -, -, hother⟩ := getElem_mixStep m s v i
  exact hother k ha hb hc hd

/-- What a step writes depends on its four words only. -/
theorem mixStep_congr (h : ∀ k ∈ stepWords i, v[k] = w[k]) (hk : k ∈ stepWords i) :
    (mixStep m s v i)[k] = (mixStep m s w i)[k] := by
  obtain ⟨hva, hvb, hvc, hvd, -⟩ := getElem_mixStep m s v i
  obtain ⟨hwa, hwb, hwc, hwd, -⟩ := getElem_mixStep m s w i
  simp only [stepWords, List.forall_mem_cons] at h
  obtain ⟨ha, hb, hc, hd, -⟩ := h
  rw [ha, hb, hc, hd] at hva hvb hvc hvd
  simp only [stepWords, List.mem_cons, List.not_mem_nil, or_false] at hk
  rcases hk with rfl | rfl | rfl | rfl
  · exact hva.trans hwa.symm
  · exact hvb.trans hwb.symm
  · exact hvc.trans hwc.symm
  · exact hvd.trans hwd.symm

/-! ## The order of the steps of a group (R163) -/

/-- A step gives its words the same values before and after a step on other words. -/
theorem mixStep_of_disjoint (h : (stepWords i).Disjoint (stepWords j)) (hk : k ∈ stepWords i) :
    (mixStep m s (mixStep m s v i) j)[k] = (mixStep m s (mixStep m s v j) i)[k] :=
  calc (mixStep m s (mixStep m s v i) j)[k]
    _ = (mixStep m s v i)[k] := mixStep_frame m s _ (h hk)
    _ = (mixStep m s (mixStep m s v j) i)[k] :=
        mixStep_congr m s v _ (fun _ hq => (mixStep_frame m s v (h hq)).symm) hk

/-- Two steps on disjoint words commute. -/
theorem mixStep_comm_of_disjoint (h : (stepWords i).Disjoint (stepWords j)) :
    mixStep m s (mixStep m s v i) j = mixStep m s (mixStep m s v j) i := by
  have hword (k : Fin 16) : (mixStep m s (mixStep m s v i) j)[k] = (mixStep m s (mixStep m s v j) i)[k] := by
    by_cases hi : k ∈ stepWords i
    · exact mixStep_of_disjoint m s v h hi
    · by_cases hj : k ∈ stepWords j
      · exact (mixStep_of_disjoint m s v h.symm hj).symm
      · rw [mixStep_frame _ _ _ hj, mixStep_frame _ _ _ hi, mixStep_frame _ _ _ hi, mixStep_frame _ _ _ hj]
  exact Vector.ext fun k hk => hword ⟨k, hk⟩

/-- Steps on pairwise disjoint words may run in any order. -/
theorem foldl_mixStep_perm {p l : List (Fin 8)} (hp : p.Perm l)
    (hl : ∀ i ∈ l, ∀ j ∈ l, i ≠ j → ∀ k ∈ stepWords i, k ∉ stepWords j) :
    p.foldl (mixStep m s) v = l.foldl (mixStep m s) v := by
  refine hp.foldl_eq' (fun i hi j hj u => ?_) v
  by_cases hij : i = j
  · rw [hij]
  · exact mixStep_comm_of_disjoint m s u fun k => hl i (hp.mem_iff.mp hi) j (hp.mem_iff.mp hj) hij k

end

/-- Settles O53: the quadruples of a group are pairwise disjoint. -/
theorem stepsOfOneGroupCommute : Obligations.StepsOfOneGroupCommute := by
  intro m s v p
  exact ⟨fun hcolumns => foldl_mixStep_perm m s v hcolumns (by decide),
    fun hdiagonals => foldl_mixStep_perm m s v hdiagonals (by decide)⟩

/-! ## The rounds (R162, R163, R168) -/

/-- The four lines of G with the library's rotation (R162). -/
theorem mixG_eq_rotateRight (a b c d x y : Word) :
    let a1 := a + b + x
    let d1 := (d ^^^ a1).rotateRight 32
    let c1 := c + d1
    let b1 := (b ^^^ c1).rotateRight 24
    let a2 := a1 + b1 + y
    let d2 := (d1 ^^^ a2).rotateRight 16
    let c2 := c1 + d2
    let b2 := (b1 ^^^ c2).rotateRight 63
    mixG a b c d x y = (a2, b2, c2, d2) := by
  have hrotate (z : Word) : rotr64 z 32 = z.rotateRight 32 ∧ rotr64 z 24 = z.rotateRight 24 ∧
      rotr64 z 16 = z.rotateRight 16 ∧ rotr64 z 63 = z.rotateRight 63 :=
    ⟨rotr64_eq_rotateRight z (by decide), rotr64_eq_rotateRight z (by decide), rotr64_eq_rotateRight z (by decide),
      rotr64_eq_rotateRight z (by decide)⟩
  simp only [mixG, hrotate]

/-- The row of `SIGMA` of round `r` (R161, R168). -/
def rowOfRound (r : Fin 12) : Fin 10 := ⟨r.val % 10, Nat.mod_lt _ (by decide)⟩

/-- Twelve rounds are the run over their rows of `SIGMA`, each row the eight steps in order (R168). -/
theorem mixRounds_eq_foldl_rows (m v : Vector Word 16) :
    mixRounds m v =
      ((List.finRange 12).map rowOfRound).foldl (fun v row => (List.finRange 8).foldl (mixStep m sigma[row]) v) v := by
  unfold mixRounds
  exact List.foldl_map.symm

/-- Settles O60: the rounds use their rows in this order, a step stores to four distinct words, and `rotr64` is rotation. -/
theorem twelveRoundsOfEightSteps : Obligations.TwelveRoundsOfEightSteps := by
  refine ⟨fun m v => ?rounds, fun m s v i => ?step, fun a b c d x y => ?lines⟩
  case rounds =>
    have hrows : (List.finRange 12).map rowOfRound = [0, 1, 2, 3, 4, 5, 6, 7, 8, 9, 0, 1] := by decide
    have hsteps : List.finRange 8 = [0, 1, 2, 3, 4, 5, 6, 7] := by decide
    rw [mixRounds_eq_foldl_rows, hrows, hsteps]
  case step => exact getElem_mixStep m s v i
  case lines => exact mixG_eq_rotateRight a b c d x y

/-! ## Around the rounds (R165, R166, R167, R169) -/

theorem lowWord_eq_ofNat (t : BitVec 128) : lowWord t = BitVec.ofNat 64 t.toNat := by
  apply BitVec.eq_of_toNat_eq
  rw [toNat_lowWord, BitVec.toNat_ofNat]

theorem highWord_eq_ofNat (t : BitVec 128) : highWord t = BitVec.ofNat 64 (t.toNat / 2 ^ 64) := by
  have ht := t.isLt
  apply BitVec.eq_of_toNat_eq
  rw [toNat_highWord, BitVec.toNat_ofNat]
  omega

/-- The working vector begins with the chain values (R165). -/
theorem getElem_workingVector_chain (h : Vector Word 8) (t : BitVec 128) (last : Bool) (i : Fin 8) :
    (workingVector h t last)[i.val]'(by omega) = h[i] := by
  fin_cases i <;> rfl

/-- Words 8 to 11 of the working vector are the first four of `IV` (R165). -/
theorem getElem_workingVector_iv (h : Vector Word 8) (t : BitVec 128) (last : Bool) (i : Fin 4) :
    (workingVector h t last)[i.val + 8]'(by omega) = iv[i.val]'(by omega) := by
  fin_cases i <;> rfl

/-- Word 14 of the working vector is inverted exactly for the last block (R166). -/
theorem getElem_workingVector_flag (h : Vector Word 8) (t : BitVec 128) (last : Bool) :
    (workingVector h t last)[14] = if last then iv[6] ^^^ 0xFFFFFFFFFFFFFFFF#64 else iv[6] := by
  cases last <;> rfl

/-- Eight bytes side by side are two words of four bytes. -/
theorem append_eight_bytes (b7 b6 b5 b4 b3 b2 b1 b0 : Byte) :
    (b7 ++ b6 ++ b5 ++ b4 ++ b3 ++ b2 ++ b1 ++ b0 : Word) =
      (b7 ++ b6 ++ b5 ++ b4 : HostWord) ++ (b3 ++ b2 ++ b1 ++ b0 : HostWord) := by
  apply BitVec.eq_of_toNat_eq
  simp only [toNat_append_eq_add]
  omega

/-- `LE64` is the `LE32` of the high four bytes beside that of the low four (R10). -/
theorem le64_eq_append_le32 {n : Nat} (b : Vector Byte n) (k : Nat) : le64 b k = le32 b (k + 4) ++ le32 b k := by
  rw [le64, le32, le32]
  exact append_eight_bytes _ _ _ _ _ _ _ _

/-- Byte `j` of a hash word made of two host words. -/
theorem wordByte_append (high low : HostWord) {j : Nat} (h : j < 8) :
    wordByte (high ++ low) j = if j < 4 then hostByte low j else hostByte high (j - 4) := by
  apply BitVec.eq_of_getLsbD_eq
  intro i hi
  simp only [wordByte, hostByte, BitVec.getLsbD_extractLsb', BitVec.getLsbD_append]
  by_cases hj : j < 4
  · rw [if_pos hj, if_pos (by omega), BitVec.getLsbD_extractLsb']
  · have hplace : 8 * j + i - 32 = 8 * (j - 4) + i := by omega
    rw [if_neg hj, if_neg (by omega), BitVec.getLsbD_extractLsb', hplace]

/-- Byte `j` of `LE64(B, k)` is `B[k + j]` (R10). -/
theorem wordByte_le64 {n : Nat} (b : Vector Byte n) (k : Nat) {j : Nat} (h : j < 8) :
    wordByte (le64 b k) j = byteAt b (k + j) := by
  rw [le64_eq_append_le32, wordByte_append _ _ h]
  by_cases hj : j < 4
  · rw [if_pos hj, hostByte_le32 b k j hj]
  · have hplace : k + 4 + (j - 4) = k + j := by omega
    rw [if_neg hj, hostByte_le32 b (k + 4) (j - 4) (by omega), hplace]

/-- The message words are the block's words, little-endian (R167). -/
theorem extractLsb'_messageWords (block : Vector Byte 128) (j : Fin 16) (b : Fin 8) :
    (messageWords block)[j].extractLsb' (8 * b.val) 8 = block[8 * j.val + b.val]'(by omega) := by
  have hword : (messageWords block)[j] = le64 block (8 * j.val) := by
    rw [messageWords, Fin.getElem_fin, getElem_tabulate]
  rw [hword]
  exact (wordByte_le64 block _ b.isLt).trans (byteAt_of_lt block (by omega))

/-- The output of `F` (R169). -/
theorem getElem_compressF (h : Vector Word 8) (t : BitVec 128) (block : Vector Byte 128) (last : Bool) (i : Fin 8) :
    let r := mixRounds (messageWords block) (workingVector h t last)
    (compressF h t block last)[i] = h[i] ^^^ r[i.val]'(by omega) ^^^ r[i.val + 8]'(by omega) := by
  rw [compressF, Fin.getElem_fin, getElem_tabulate]

/-- Settles O59: the working vector word by word, the message words byte by byte, and the output word by word. -/
theorem compressionAroundItsRounds : Obligations.CompressionAroundItsRounds := by
  intro h t block last
  refine ⟨getElem_workingVector_chain h t last, getElem_workingVector_iv h t last, ?low, ?high,
    getElem_workingVector_flag h t last, rfl, extractLsb'_messageWords block, getElem_compressF h t block last⟩
  case low => exact congrArg (iv[4] ^^^ ·) (lowWord_eq_ofNat t)
  case high => exact congrArg (iv[5] ^^^ ·) (highWord_eq_ofNat t)

end Sys2Proof.Machine
end

section
/-! PROOFS. Absorption: `WRITE` in closed form and its frame, the counter, the splits of a message, and the buffer bytes and
registers that a command does not read (spec/42_absorb.md). -/

namespace Sys2Proof.Machine

/-! ## The outcome of `WRITE` and `SUM` on a configured state (R204, R238) -/

theorem exec_write_of_configured {n : Nat} {s : State} (hn : n ≤ 128) (hconf : s.hash.conf = true) :
    exec (.write n) s = .next (s.setHash (s.hash.absorb (inputBytes n s.regs))).completeOk := by
  rw [exec, execWrite, if_neg (Nat.not_lt.mpr hn), State.whenConfigured_of_configured _ _ hconf]

theorem exec_sum_of_configured {s : State} (hconf : s.hash.conf = true) :
    exec .sum s = .next (s.setDigest (digestWindow s.hash.dsize (finalChain s.hash))).completeOk := by
  rw [exec, execSum, State.whenConfigured_of_configured _ _ hconf]

/-! ## Absorption block by block (R200, R202) -/

/-- A full buffer is compressed as soon as a byte follows it. -/
theorem HashState.absorb_of_full {x : HashState} {p : List Byte} (hfull : x.off = 128) (hp : p ≠ []) :
    x.absorb p = x.compressBlock.absorb p := by
  cases p with
  | nil => exact absurd rfl hp
  | cons b p =>
    rw [HashState.absorb_cons, HashState.absorb_cons, x.absorbByte_of_full b hfull,
      x.compressBlock.absorbByte_of_room b (by simp)]
    rfl

/-- `buf` with the bytes `p` stored from byte `o` on. -/
def storeFrom (o : Nat) (p : List Byte) (buf : Vector Byte 128) : Vector Byte 128 :=
  tabulate fun k : Fin 128 => if o ≤ k.val ∧ k.val < o + p.length then p[k.val - o]?.getD 0 else buf[k]

theorem getElem_storeFrom (o : Nat) (p : List Byte) (buf : Vector Byte 128) (k : Nat) (h : k < 128) :
    (storeFrom o p buf)[k] = if o ≤ k ∧ k < o + p.length then p[k - o]?.getD 0 else buf[k] := by
  rw [storeFrom, getElem_tabulate]
  rfl

theorem HashState.absorb_eq_storeFrom {x : HashState} {p : List Byte} (h : x.off.val + p.length ≤ 128) :
    x.absorb p =
      { x with buf := storeFrom x.off.val p x.buf, off := Fin.ofNat 129 (x.off.val + p.length) } :=
  x.absorb_of_fits p h

/-- Bytes that overflow the buffer, but not a second time, compress one block: the buffer filled up with the first of them. -/
theorem HashState.absorb_of_overflow {x : HashState} {p : List Byte} {full : Vector Byte 128}
    (hover : 128 < x.off.val + p.length) (hlen : x.off.val + p.length ≤ 256)
    (hfull : storeFrom x.off.val (p.take (128 - x.off.val)) x.buf = full) :
    x.absorb p = { x with
      h := compressF x.h (x.t + 128) full false
      t := x.t + 128
      buf := storeFrom 0 (p.drop (128 - x.off.val)) full
      off := Fin.ofNat 129 (x.off.val + p.length - 128) } := by
  have hoff := x.off.isLt
  have htake : x.off.val + (p.take (128 - x.off.val)).length = 128 := by
    rw [List.length_take]
    omega
  have hdrop : (p.drop (128 - x.off.val)).length = x.off.val + p.length - 128 := by
    rw [List.length_drop]
    omega
  have hrest : p.drop (128 - x.off.val) ≠ [] := List.ne_nil_of_length_pos (by omega)
  rw [HashState.absorb_split_full, HashState.absorb_eq_storeFrom (Nat.le_of_eq htake), htake, hfull,
    HashState.absorb_of_full rfl hrest]
  rw [HashState.absorb_eq_storeFrom (by rw [HashState.compressBlock_off, hdrop]; simp only [Fin.val_zero]; omega)]
  rw [HashState.compressBlock, advanceCounter_eq_add, hdrop, Fin.val_zero, Nat.zero_add]
  rfl

theorem take_inputBytes {m n : Nat} (r : HostRegs) (h : m ≤ n) : (inputBytes n r).take m = inputBytes m r := by
  rw [inputBytes, List.take_take, Nat.min_eq_left h, inputBytes]

theorem getElem_storeFrom_inputBytes {o n : Nat} (r : HostRegs) (hn : n ≤ 128) (buf : Vector Byte 128) (k : Nat)
    (h : k < 128) :
    (storeFrom o (inputBytes n r) buf)[k] = if o ≤ k ∧ k < o + n then byteAt r.din (k - o) else buf[k] := by
  rw [getElem_storeFrom, inputBytes_length r hn]
  split
  · exact getElem?_inputBytes r _ (by omega)
  · rfl

/-- Settles O29: the bytes fit the buffer, or they fill it up and the rest fits the buffer emptied by one compression. -/
theorem writeAbsorbsBlockwise : Obligations.WriteAbsorbsBlockwise := by
  intro s n hconf hn o
  have hlen : (inputBytes n s.regs).length = n := inputBytes_length s.regs hn
  have ho : o ≤ 128 := Nat.le_of_lt_succ s.hash.off.isLt
  split
  case isTrue hfits =>
    have hbuf : storeFrom o (inputBytes n s.regs) s.hash.buf = tabulate fun k : Fin 128 =>
        if o ≤ k.val ∧ k.val < o + n then byteAt s.regs.din (k.val - o) else s.hash.buf[k] := by
      ext k hk : 1
      rw [getElem_storeFrom_inputBytes s.regs hn, getElem_tabulate]
      rfl
    rw [exec_write_of_configured hn hconf, HashState.absorb_eq_storeFrom (by rw [hlen]; exact hfits), hlen, hbuf]
    rfl
  case isFalse hover =>
    intro full
    have hfull : storeFrom o ((inputBytes n s.regs).take (128 - o)) s.hash.buf = full := by
      ext k hk : 1
      rw [take_inputBytes s.regs (by omega), getElem_storeFrom_inputBytes s.regs (by omega), getElem_tabulate]
      by_cases hko : k < o
      · rw [if_neg (by omega), if_pos hko]
        rfl
      · rw [if_pos (by omega), if_neg hko]
    clear_value full
    have hbuf : storeFrom 0 ((inputBytes n s.regs).drop (128 - o)) full = tabulate fun k : Fin 128 =>
        if k.val < o + n - 128 then byteAt s.regs.din (128 - o + k.val) else full[k] := by
      ext k hk : 1
      rw [getElem_storeFrom, getElem_tabulate, List.length_drop, hlen, List.getElem?_drop, Nat.sub_zero]
      by_cases hkn : k < o + n - 128
      · rw [if_pos (by omega), if_pos hkn, getElem?_inputBytes s.regs _ (by omega)]
      · rw [if_neg (by omega), if_neg hkn]
        rfl
    rw [exec_write_of_configured hn hconf,
      HashState.absorb_of_overflow (by rw [hlen]; omega) (by rw [hlen]; omega) hfull, hbuf, hlen]
    rfl

/-! ## The frame of `WRITE` (R40, R41, R204) -/

theorem exec_write_regs {n : Nat} {s t : State} (h : exec (.write n) s = .next t) : t.regs = s.regs := by
  obtain ⟨d, hregs⟩ := exec_regs h
  have hd : d = s.regs.dout := by rw [← exec_write_dout h, hregs]
  rw [hregs, hd]

/-- Settles O31: `WRITE` keeps the configuration and the registers, and the window shows these but in `STATUS` and `CNT`. -/
theorem writeFrame : Obligations.WriteFrame := by
  intro n s t h
  have hregs := exec_write_regs h
  have hsame : SameConfiguration t.hash s.hash := exec_sameConfiguration (i := .write n) nofun h
  have hread (r : WindowReg) (hstatus : r ≠ .status) (hcnt : ∀ k, r ≠ .cnt k) : readReg r t = readReg r s := by
    cases r with
    | size => exact readReg_size_congr hsame
    | dout k => rw [readReg, readReg, hregs]
    | _ => exact readReg_of_staging hregs hstatus nofun hcnt nofun
  obtain ⟨hconf, hhinit, hkeyed, hkb, hdsize⟩ := hsame
  exact ⟨hconf, hhinit, hkeyed, hkb, hdsize, hregs, exec_port h, hread⟩

/-! ## The counter (R201 to R203, R206) -/

/-- Settles O37: the carry out of the low word makes it an addition. -/
theorem advanceCounterIsAdd128 : Obligations.AdvanceCounterIsAdd128 := advanceCounter_eq_add

/-- Settles O32: what an empty hash has absorbed is its non-final blocks, and the buffer holds the last one. -/
theorem counterCountsDeferredBlocks : Obligations.CounterCountsDeferredBlocks := by
  intro x p ht ho
  have hempty : Absorbed x.h [] (nonFinalBlocks ([] : List Byte).length) x := absorbed_nil ht ho
  obtain ⟨-, hcounter, hcount, -⟩ := hempty.absorb p
  rw [List.nil_append, nonFinalBlocks] at hcounter hcount
  refine ⟨hcounter, by omega, fun hp => ?_⟩
  have hpos : 0 < p.length := List.length_pos_of_ne_nil hp
  omega

theorem val_add_one_of_room {off : Fin 129} (hroom : off ≠ 128) : (off + 1).val = off.val + 1 :=
  Fin.val_add_one_of_lt (Fin.lt_last_iff_ne_last.mpr hroom)

/-- A byte adds one to `T + OFF`: it takes the next place of the buffer, or the first one after a block of 128 is counted. -/
theorem HashState.absorbByte_total (x : HashState) (b : Byte) :
    (x.absorbByte b).t + BitVec.ofNat 128 (x.absorbByte b).off.val = x.t + BitVec.ofNat 128 x.off.val + 1#128 := by
  rcases x.absorbByte_cases b with ⟨hroom, h⟩ | ⟨hfull, h⟩
  · rw [h, val_add_one_of_room hroom, BitVec.ofNat_add, BitVec.add_assoc]
  · rw [h, hfull, HashState.compressBlock_t, advanceCounter_eq_add]
    rfl

/-- Settles O33, byte by byte. -/
theorem counterAndOffsetCountBytes : Obligations.CounterAndOffsetCountBytes := by
  intro x p
  induction p generalizing x with
  | nil => exact (BitVec.add_zero _).symm
  | cons b p ih =>
    rw [HashState.absorb_cons, ih, HashState.absorbByte_total, BitVec.add_assoc, ← BitVec.ofNat_add, List.length_cons,
      Nat.add_comm]

/-- Absorbing at most a block counts no block or one. -/
theorem HashState.absorb_t_of_le {x : HashState} {p : List Byte} (h : p.length ≤ 128) :
    (x.absorb p).t = x.t ∨ (x.absorb p).t = x.t + 128 := by
  have hoff := x.off.isLt
  by_cases hfits : x.off.val + p.length ≤ 128
  · exact .inl (by rw [HashState.absorb_eq_storeFrom hfits])
  · exact .inr (by rw [HashState.absorb_of_overflow (by omega) (by omega) rfl])

/-- Settles O35: `SUM` keeps `T`, and `WRITE` keeps it or adds 128. -/
theorem counterNeverDecreases : Obligations.CounterNeverDecreases := by
  intro i s t hi hwrap h
  rcases exec_cases h with ⟨c, -, rfl⟩ | ⟨rfl, -⟩ | ⟨n, -, hn, -, rfl⟩ | ⟨-, -, rfl⟩ | ⟨rfl, -⟩
  · exact Nat.le_refl _
  · simp at hi
  · have hadd : (s.hash.t + 128).toNat = s.hash.t.toNat + 128 := by
      rw [BitVec.toNat_add]
      exact Nat.mod_eq_of_lt hwrap
    rw [State.completeOk_hash, State.setHash_hash]
    rcases s.hash.absorb_t_of_le ((inputBytes_length s.regs hn).trans_le hn) with ht | ht
    · exact Nat.le_of_eq (congrArg BitVec.toNat ht.symm)
    · rw [ht, hadd]
      exact Nat.le_add_right _ _
  · exact Nat.le_refl _
  · simp at hi

/-! ## Splits of a message, and a `SUM` in between (R205, R239) -/

/-- The digest that `SUM` leaves depends on the hash state only. -/
theorem exec_sum_dout_congr {a b : State} (hconf : a.hash.conf = true) (h : a.hash = b.hash) :
    ∃ u v, exec .sum a = .next u ∧ exec .sum b = .next v ∧ u.regs.dout = v.regs.dout := by
  refine ⟨_, _, exec_sum_of_configured hconf, exec_sum_of_configured (h ▸ hconf), ?_⟩
  rw [State.completeOk_regs, State.completeOk_regs, State.setDigest_regs_dout, State.setDigest_regs_dout, h]

/-- Settles O34: either split absorbs the same message. -/
theorem writeSplitInvariance : Obligations.WriteSplitInvariance := by
  intro s cs ds hconf hcs hds hsplit
  obtain ⟨a, ha, hahash⟩ := writeChunks_absorbs cs hconf hcs
  obtain ⟨b, hb, hbhash⟩ := writeChunks_absorbs ds hconf hds
  have hab : a.hash = b.hash := by rw [hahash, hbhash, hsplit]
  obtain ⟨u, v, hu, hv, hdout⟩ := exec_sum_dout_congr (by rw [hahash, HashState.absorb_conf, hconf]) hab
  refine ⟨a, b, u, v, ha, hb, ?_, ?_, ?_, fun k _ => ?_, hu, hv, hdout⟩ <;> rw [hab]

/-- `SUM` does not write the hash state (R230). -/
theorem exec_sum_hash {s t : State} (h : exec .sum s = .next t) : t.hash = s.hash := by
  rcases execSum_cases s with ⟨-, hsum⟩ | ⟨-, hsum⟩ <;> cases hsum.symm.trans h <;> rfl

/-- Settles O43: `SUM` keeps the hash state it reads, so the second part of the message is absorbed as if it had not run. -/
theorem sumDoesNotDisturbTheHash : Obligations.SumDoesNotDisturbTheHash := by
  refine ⟨fun s t h => ?repeated, fun s cs ds hconf hcs hds => ?peeked⟩
  case repeated =>
    rcases execSum_cases s with ⟨hnot, hsum⟩ | ⟨hconf, hsum⟩ <;> cases hsum.symm.trans h
    · exact congrArg Host.Outcome.next (State.whenConfigured_of_unconfigured _ (s.raiseCmdError _) hnot)
    · exact exec_sum_of_configured (s := (s.setDigest _).completeOk) hconf
  case peeked =>
    have hlen : ∀ c ∈ cs ++ ds, c.length ≤ 128 := fun c hc => (List.mem_append.mp hc).elim (hcs c) (hds c)
    obtain ⟨a, ha, hahash⟩ := writeChunks_absorbs cs hconf hcs
    obtain ⟨p, hp⟩ := exec_answers .sum a
    have hphash : p.hash = s.hash.absorb cs.flatten := (exec_sum_hash hp).trans hahash
    have hpconf : p.hash.conf = true := by rw [hphash, HashState.absorb_conf, hconf]
    obtain ⟨q, hq, hqhash⟩ := writeChunks_absorbs ds hpconf hds
    obtain ⟨b, hb, hbhash⟩ := writeChunks_absorbs (cs ++ ds) hconf hlen
    have hqb : q.hash = b.hash := by
      rw [hqhash, hphash, hbhash, List.flatten_append, HashState.absorb_append]
    obtain ⟨u, v, hu, hv, hdout⟩ := exec_sum_dout_congr (by rw [hqhash, HashState.absorb_conf, hpconf]) hqb
    exact ⟨a, p, q, b, u, v, ha, hp, hq, hu, hb, hv, hdout⟩

/-! ## The stale bytes of the buffer (R45) -/

/-- `x` with another buffer. -/
def HashState.setBuf (buf : Vector Byte 128) (x : HashState) : HashState := { x with buf := buf }

/-- `buf` holds the significant bytes of the buffer of `x`. -/
def HashState.SignificantIn (x : HashState) (buf : Vector Byte 128) : Prop :=
  ∀ k : Fin 128, k.val < x.off.val → buf[k] = x.buf[k]

theorem HashState.SignificantIn.eq_of_full {x : HashState} {buf : Vector Byte 128} (h : x.SignificantIn buf)
    (hfull : x.off = 128) : buf = x.buf := by
  ext k hk : 1
  exact h ⟨k, hk⟩ (by rw [hfull]; exact hk)

/-- Bytes stored at `OFF` hide one stale byte each, and a compression reads a buffer without stale bytes (R202). -/
theorem HashState.absorbByte_setBuf {x : HashState} {buf : Vector Byte 128} (h : x.SignificantIn buf) (b : Byte) :
    ∃ buf', (x.setBuf buf).absorbByte b = (x.absorbByte b).setBuf buf' ∧ (x.absorbByte b).SignificantIn buf' := by
  by_cases hfull : x.off = 128
  · exact ⟨(x.absorbByte b).buf, by rw [h.eq_of_full hfull]; rfl, fun _ _ => rfl⟩
  · refine ⟨buf.setIfInBounds x.off.val b, ?_, ?_⟩
    · rw [x.absorbByte_of_room b hfull, (x.setBuf buf).absorbByte_of_room b hfull]
      rfl
    · rw [x.absorbByte_of_room b hfull]
      intro k hk
      simp only [val_add_one_of_room hfull] at hk
      simp only [Fin.getElem_fin, Vector.getElem_setIfInBounds k.isLt]
      split
      · rfl
      · exact h k (by omega)

theorem HashState.absorb_setBuf {x : HashState} {buf : Vector Byte 128} (h : x.SignificantIn buf) (p : List Byte) :
    ∃ buf', (x.setBuf buf).absorb p = (x.absorb p).setBuf buf' ∧ (x.absorb p).SignificantIn buf' := by
  induction p generalizing x buf with
  | nil => exact ⟨buf, rfl, h⟩
  | cons b p ih =>
    obtain ⟨buf₁, hbyte, h₁⟩ := HashState.absorbByte_setBuf h b
    rw [HashState.absorb_cons, HashState.absorb_cons, hbyte]
    exact ih h₁

/-- The final block takes the significant bytes only (R233). -/
theorem HashState.finalChain_setBuf {x : HashState} {buf : Vector Byte 128} (h : x.SignificantIn buf) :
    finalChain (x.setBuf buf) = finalChain x := by
  have hblock : finalBlock buf x.off = finalBlock x.buf x.off := by
    ext k hk : 1
    rw [getElem_finalBlock, getElem_finalBlock]
    split
    · exact h ⟨k, hk⟩ ‹_›
    · rfl
  exact congrArg (compressF x.h (finalCounter x.t x.off) · true) hblock

/-- `s'` is `s` but for stale bytes of the buffer. -/
def EqualButStaleBytes (s s' : State) : Prop :=
  ∃ buf, s.hash.SignificantIn buf ∧ s' = s.setHash (s.hash.setBuf buf)

theorem EqualButStaleBytes.refl (s : State) : EqualButStaleBytes s s := ⟨s.hash.buf, fun _ _ => rfl, rfl⟩

section
variable {s s' : State}

/-- Such states answer the same on `CONF`, so an effect that keeps them so is all that matters. -/
theorem EqualButStaleBytes.whenConfigured {f : State → State} (h : EqualButStaleBytes s s')
    (hf : EqualButStaleBytes (f s) (f s')) : EqualButStaleBytes (s.whenConfigured f) (s'.whenConfigured f) := by
  obtain ⟨buf, hbuf, rfl⟩ := h
  cases hc : s.hash.conf with
  | false =>
    rw [State.whenConfigured_of_unconfigured f s hc,
      State.whenConfigured_of_unconfigured f (s.setHash (s.hash.setBuf buf)) hc]
    exact ⟨buf, hbuf, rfl⟩
  | true =>
    obtain ⟨buf', hbuf', heq⟩ := hf
    rw [State.whenConfigured_of_configured f s hc,
      State.whenConfigured_of_configured f (s.setHash (s.hash.setBuf buf)) hc, heq]
    exact ⟨buf', hbuf', rfl⟩

theorem EqualButStaleBytes.raiseCmdError (h : EqualButStaleBytes s s') (c : ResultCode) :
    EqualButStaleBytes (s.raiseCmdError c) (s'.raiseCmdError c) := by
  obtain ⟨buf, hbuf, rfl⟩ := h
  exact ⟨buf, hbuf, rfl⟩

theorem EqualButStaleBytes.absorb (h : EqualButStaleBytes s s') (n : Nat) :
    EqualButStaleBytes (s.setHash (s.hash.absorb (inputBytes n s.regs)))
      (s'.setHash (s'.hash.absorb (inputBytes n s'.regs))) := by
  obtain ⟨buf, hbuf, rfl⟩ := h
  obtain ⟨buf', habsorb, hbuf'⟩ := HashState.absorb_setBuf hbuf (inputBytes n s.regs)
  exact ⟨buf', hbuf', congrArg s.setHash habsorb⟩

theorem EqualButStaleBytes.digest (h : EqualButStaleBytes s s') :
    EqualButStaleBytes (s.setDigest (digestWindow s.hash.dsize (finalChain s.hash)))
      (s'.setDigest (digestWindow s'.hash.dsize (finalChain s'.hash))) := by
  obtain ⟨buf, hbuf, rfl⟩ := h
  rw [State.setHash_hash, HashState.finalChain_setBuf hbuf]
  exact ⟨buf, hbuf, rfl⟩

/-- `INIT` and `RESET` start with an empty buffer, `WRITE` stores behind the significant bytes, `SUM` reads only these. -/
theorem exec_equalButStaleBytes (h : EqualButStaleBytes s s') {i : Instr} {t : State} (ht : exec i s = .next t) :
    ∃ t', exec i s' = .next t' ∧ EqualButStaleBytes t t' := by
  cases i with
  | init =>
    rcases execInit_cases s with ⟨c, hc, -, hinit⟩ | ⟨hlegal, hinit⟩ <;> cases hinit.symm.trans ht
    · refine ⟨_, exec_init_of_error ?_, h.raiseCmdError c⟩
      obtain ⟨buf, -, rfl⟩ := h
      exact hc
    · refine ⟨_, ?_, .refl _⟩
      obtain ⟨buf, -, rfl⟩ := h
      rw [exec, execInit, State.setHash_regs, hlegal]
      rfl
  | write n =>
    rw [exec, execWrite] at ht ⊢
    by_cases hn : 128 < n
    · rw [if_pos hn] at ht ⊢
      cases ht
      exact ⟨_, rfl, h.raiseCmdError _⟩
    · rw [if_neg hn] at ht ⊢
      cases ht
      exact ⟨_, rfl, h.whenConfigured (h.absorb n)⟩
  | sum =>
    cases ht
    exact ⟨_, rfl, h.whenConfigured h.digest⟩
  | reset =>
    cases ht
    refine ⟨_, rfl, h.whenConfigured ?_⟩
    obtain ⟨buf, -, rfl⟩ := h
    exact .refl _

end

/-- Settles O36: no command lets stale bytes reach more than stale bytes. -/
theorem staleBufferBytesAreInvisible : Obligations.StaleBufferBytesAreInvisible := by
  intro i s t buf hbuf ht
  have hstale : EqualButStaleBytes s (s.setHash (s.hash.setBuf buf)) := ⟨buf, hbuf, rfl⟩
  obtain ⟨_, ht', buf', hbuf', rfl⟩ := exec_equalButStaleBytes hstale ht
  exact ⟨buf', ht', hbuf'⟩

/-! ## The staging registers that a command reads (R204, R341) -/

/-- `WRITE n` reads `DIN[0..n)`: a change `e` of the registers that keeps these bytes passes through it. -/
theorem exec_write_mapRegs {n : Nat} {s t : State} (e : HostRegs → HostRegs)
    (hinput : inputBytes n (e s.regs) = inputBytes n s.regs) (h : exec (.write n) s = .next t) :
    exec (.write n) (s.mapRegs e) = .next (t.mapRegs e) := by
  rw [exec, execWrite] at h ⊢
  by_cases hn : 128 < n
  · rw [if_pos hn] at h ⊢
    cases h
    rfl
  · rw [if_neg hn] at h ⊢
    cases h
    rw [State.whenConfigured_mapRegs]
    rw [State.mapRegs_hash, State.mapRegs_regs, hinput]
    rfl

theorem inputBytes_congr {n : Nat} {r q : HostRegs} (h : ∀ k : Fin 128, k.val < n → q.din[k] = r.din[k]) :
    inputBytes n q = inputBytes n r := by
  apply List.ext_getElem
  · simp only [inputBytes, List.length_take, Vector.length_toList]
  · intro k hk _
    have hmin : k < min n 128 := by simpa [inputBytes] using hk
    simp only [inputBytes, List.getElem_take, Vector.getElem_toList]
    exact h ⟨k, by omega⟩ (by simp only; omega)

/-- Settles O50: a change of registers that the command does not read passes through it. -/
theorem stagingIsReadAtItsCommandOnly : Obligations.StagingIsReadAtItsCommandOnly :=
  ⟨fun _i _s _t cfg key salt hi h =>
      exec_mapRegs (fun r => { r with cfg := cfg, key := key, salt := salt }) (fun _ => rfl) (fun _ _ => rfl) hi h,
    fun _n _s _t din hdin h => exec_write_mapRegs (fun r => { r with din := din }) (inputBytes_congr hdin) h⟩

end Sys2Proof.Machine
end

section
/-! PROOFS. Finalization: the counter of the final compression, `SUM` in closed form and its frame
(spec/43_finalize.md). -/

namespace Sys2Proof.Machine

/-! ## The counter of the final compression (R232, R235) -/

/-- Settles O38: the borrow from the high word makes it a subtraction. -/
theorem correctCounterIsSub128 : Obligations.CorrectCounterIsSub128 := correctCounter_eq_sub

/-- Settles O39: less the missing bytes of the block, and the whole block more. -/
theorem finalCounterIsTotalLength : Obligations.FinalCounterIsTotalLength := finalCounter_eq_add

/-! ## The outcome of `SUM` (R233, R234, R236, R237) -/

/-- The final compression counts every byte absorbed, those in the buffer included. -/
theorem finalChain_eq_compressF (x : HashState) :
    finalChain x = compressF x.h (x.t + BitVec.ofNat 128 x.off.val) (finalBlock x.buf x.off) true := by
  rw [finalChain, finalCounter_eq_add]

theorem digestWindow_eq_tabulate (d : BitVec 7) (h : Vector Word 8) :
    digestWindow d h = tabulate fun i : Fin 64 =>
      if i.val < d.toNat then wordByte (h[i.val / 8]'(by omega)) (i.val % 8) else 0 := by
  ext i hi : 1
  rw [getElem_digestWindow, getElem_serialize, getElem_tabulate]

/-- Settles O40. -/
theorem sumOutputsFinalDigest : Obligations.SumOutputsFinalDigest := by
  intro s hconf block h
  have hchain : finalChain s.hash = h := finalChain_eq_compressF s.hash
  clear_value h
  rw [exec_sum_of_configured hconf, hchain, digestWindow_eq_tabulate]
  rfl

/-! ## The frame of `SUM` (R230) -/

/-- Settles O41: `SUM` keeps the hash state and the staging registers, and the window shows these but in `STATUS` and
`DOUT`. -/
theorem sumFrame : Obligations.SumFrame := by
  intro s t h
  obtain ⟨d, hregs⟩ := exec_regs h
  have hhash : t.hash = s.hash := exec_sum_hash h
  have hread (r : WindowReg) (hstatus : r ≠ .status) (hdout : ∀ k, r ≠ .dout k) : readReg r t = readReg r s := by
    cases r with
    | size => rw [readReg, readReg, sizeWord, sizeWord, hhash]
    | cnt k => rw [readReg, readReg, countWord, countWord, hhash]
    | _ => exact readReg_of_staging hregs hstatus nofun nofun hdout
  refine ⟨hhash, ?_, ?_, ?_, ?_, exec_port h, hread⟩ <;> rw [hregs]

end Sys2Proof.Machine
end

section
/-! PROOFS. `RESET` on a configured state, in closed form (spec/44_reset_cmd.md R260). -/

namespace Sys2Proof.Machine

theorem exec_reset_of_configured {s : State} (hconf : s.hash.conf = true) :
    exec .reset s =
      .next ((s.setHash (s.hash.start s.hash.hinit).absorbKey).setDigest (zeros 64)).completeOk := by
  rw [exec, execReset, State.whenConfigured_of_configured _ _ hconf]

/-- Settles O44: the hash restarts from the snapshot, and absorbing the key block into its empty buffer compresses nothing. -/
theorem resetReturnsToSnapshot : Obligations.ResetReturnsToSnapshot := by
  intro s hconf
  rw [exec_reset_of_configured hconf, HashState.absorbKey_start]
  rfl

end Sys2Proof.Machine
end

section
/-! PROOFS. Host access: every event at the port is answered outside reset, what a read of any offset returns, the fields of
`STATUS`, and what each register reads after a write (spec/45_host_access.md). -/

namespace Sys2Proof.Machine

/-! ## Progress of the port (R286, R300, R352) -/

theorem serveAccess_answers (x : Transaction) (s : State) : ∃ t, serveAccess x s = .next t := by
  cases x with
  | read off => exact ⟨_, rfl⟩
  | write off w =>
    by_cases hcmd : regAt off = .cmd
    · obtain ⟨t, ht⟩ := runCommand_answers w s
      rw [serveAccess_write_of_cmd off w s hcmd, ht]
      exact ⟨_, rfl⟩
    · exact ⟨_, serveAccess_write_of_ne_cmd off w s hcmd⟩

theorem serveEvent_answers (e : HostEvent) {s : State} (hr : s.port.rst = false) : ∃ t, serveEvent e s = .next t := by
  cases e with
  | access x =>
    rw [serveEvent_access s x hr]
    exact serveAccess_answers x s
  | rst level => cases level <;> rw [serveEvent, hr] <;> exact ⟨_, rfl⟩
  | cutOff x =>
    rw [serveEvent, hr]
    exact ⟨_, rfl⟩

/-- Settles O12: with nothing pending the block stays, and outside reset no event is refused. -/
theorem portAlwaysAnswersOutsideReset : Obligations.PortAlwaysAnswersOutsideReset := by
  intro s hr
  cases hp : s.port.pending with
  | nil => exact ⟨s, step_of_nil hp⟩
  | cons e rest =>
    rw [step_of_cons hp]
    exact serveEvent_answers e (s := s.setPending rest) hr

/-! ## The table of reads (R281) -/

/-- The masked offsets that the map R62 gives a register. -/
def WindowReg.Covers (o : Nat) : WindowReg → Prop
  | .cmd => o = 0x000
  | .status => o = 0x004
  | .cfg => o = 0x008
  | .size => o = 0x00C
  | .blksz => o = 0x010
  | .cnt k => o = 0x020 + 4 * k.val
  | .key k => o = 0x040 + 4 * k.val
  | .salt k => o = 0x080 + 4 * k.val
  | .din k => o = 0x100 + 4 * k.val
  | .dout k => o = 0x180 + 4 * k.val
  | .reserved => (0x014 ≤ o ∧ o < 0x020) ∨ (0x030 ≤ o ∧ o < 0x040) ∨ (0x090 ≤ o ∧ o < 0x100) ∨ 0x1C0 ≤ o

/-- The register at an offset covers its masked offset: the map R62 read from the register to the offset. -/
theorem covers_regAt (off : Offset) : (regAt off).Covers (wordOffset off) := by
  have ho := wordOffset_eq off
  rw [regAt]
  split_ifs <;> simp only [WindowReg.Covers] <;> omega

theorem countWord_eq_ofNat (s : State) (k : Nat) :
    countWord s k = BitVec.ofNat 32 (s.hash.t.toNat / 2 ^ (32 * k)) := by
  rw [countWord, BitVec.extractLsb', Nat.shiftRight_eq_div_pow]

theorem sizeWord_eq_ofNat (s : State) :
    sizeWord s = if s.hash.conf then BitVec.ofNat 32 s.hash.dsize.toNat else 0x00000000#32 := by
  rw [sizeWord, BitVec.ofNat_toNat]
  rfl

/-- The word of a byte window at the masked offset `o`, for a window that begins at offset `first` (R64). -/
theorem le32_eq_append_of_offset {n o first k : Nat} (win : Vector Byte n) (ho : o = first + 4 * k) :
    le32 win (4 * k) =
      byteAt win (o - first + 3) ++ byteAt win (o - first + 2) ++ byteAt win (o - first + 1) ++ byteAt win (o - first) := by
  rw [le32, ho, Nat.add_sub_cancel_left]

/-- Settles O58: the register an offset reaches fixes the range the offset lies in, and with it the row of the table. -/
theorem readReturnsTableWord : Obligations.ReadReturnsTableWord := by
  intro s off o
  have hcovers : (regAt off).Covers o := covers_regAt off
  generalize regAt off = r at hcovers ⊢
  clear_value o
  cases r <;> rw [WindowReg.Covers] at hcovers <;> simp (disch := omega) only [readReg, if_pos, if_neg]
  case cmd | status | blksz | key | reserved => rfl
  case size => exact sizeWord_eq_ofNat s
  case cnt k =>
    have hk : (o - 0x020) / 4 = k.val := by omega
    rw [countWord_eq_ofNat, hk]
  case salt k => exact le32_eq_append_of_offset s.regs.salt hcovers
  case din k => exact le32_eq_append_of_offset s.regs.din hcovers
  case dout k => exact le32_eq_append_of_offset s.regs.dout hcovers

/-! ## The fields of `STATUS` (R33) -/

/-- `STATUS` as a number: each field at the weight of its lowest bit (R33). -/
theorem toNat_statusWord (s : State) :
    (statusWord s).toNat = (resultByte s.err).toNat * 2 ^ 16 + s.hash.off.val * 2 ^ 8 + s.hash.keyed.toNat * 2 +
      s.hash.conf.toNat := by
  have hoff : s.hash.off.val % 2 ^ 8 = s.hash.off.val := by omega
  simp only [statusWord, toNat_append_eq_add, BitVec.toNat_ofBool, BitVec.toNat_ofNat, hoff]
  omega

/-- A field of `STATUS` is the value that its bits have in the sum. -/
theorem extractLsb'_readReg_status (s : State) {start len : Nat} {x : BitVec len}
    (h : ((resultByte s.err).toNat * 2 ^ 16 + s.hash.off.val * 2 ^ 8 + s.hash.keyed.toNat * 2 + s.hash.conf.toNat)
      / 2 ^ start % 2 ^ len = x.toNat) : (readReg .status s).extractLsb' start len = x := by
  apply BitVec.eq_of_toNat_eq
  rw [readReg, BitVec.extractLsb'_toNat, Nat.shiftRight_eq_div_pow, toNat_statusWord, h]

/-- Settles O19: the fields do not overlap, so each is a quotient and remainder of the sum; under the invariants an unconfigured
block is not keyed. -/
theorem statusWordFields : Obligations.StatusWordFields := by
  intro s
  dsimp only
  have herr := (resultByte s.err).isLt
  have hoff := s.hash.off.isLt
  have hkeyed := Bool.toNat_le s.hash.keyed
  have hconf := Bool.toNat_le s.hash.conf
  have hbool (b : Bool) : (if b then 1#1 else 0#1) = BitVec.ofBool b := by cases b <;> rfl
  have hbit : (readReg .status s).extractLsb' 1 1 = BitVec.ofBool s.hash.keyed :=
    extractLsb'_readReg_status s (by rw [BitVec.toNat_ofBool]; omega)
  refine ⟨?conf, ?keyed, ?zeros, ?off, ?err, ?reserved, ?unconfigured⟩
  case conf => exact extractLsb'_readReg_status s (by rw [hbool, BitVec.toNat_ofBool]; omega)
  case keyed => rw [hbit, hbool]
  case off =>
    have hbyte : (readReg .status s).extractLsb' 8 8 = BitVec.ofNat 8 s.hash.off.val :=
      extractLsb'_readReg_status s (by rw [BitVec.toNat_ofNat]; omega)
    rw [hbyte, BitVec.toNat_ofNat, Nat.mod_eq_of_lt (by omega)]
  case err => exact extractLsb'_readReg_status s (by omega)
  case zeros | reserved => exact extractLsb'_readReg_status s (by rw [BitVec.toNat_ofNat]; omega)
  case unconfigured =>
    intro hinv hunconf
    obtain ⟨-, -, -, -, hunkeyed, -⟩ := hinv.unconfigured hunconf
    rw [hbit, hunkeyed]
    rfl

/-! ## A write and a read after it (R281, R282) -/

/-- A write is seen in the register it names only. -/
theorem readReg_writeReg_of_ne {q r : WindowReg} (w : HostWord) (s : State) (h : q ≠ r) :
    readReg q (writeReg r w s) = readReg q s := by
  cases r with
  | cmd | status | size | blksz | cnt | dout | reserved => rfl
  | cfg => cases q with
    | cfg => exact absurd rfl h
    | _ => rfl
  | key k => cases q <;> rfl
  | salt k => cases q with
    | salt j =>
      have hne : j.val ≠ k.val := fun hjk => h (congrArg _ (Fin.ext hjk))
      exact le32_storeWord_of_ne s.regs.salt (4 * j.val) (4 * k.val) w (by omega)
    | _ => rfl
  | din k => cases q with
    | din j =>
      have hne : j.val ≠ k.val := fun hjk => h (congrArg _ (Fin.ext hjk))
      exact le32_storeWord_of_ne s.regs.din (4 * j.val) (4 * k.val) w (by omega)
    | _ => rfl

/-- `CFG` reads back without bits [31:24] (R34). -/
theorem append_low_24_bits (w : HostWord) : 0#8 ++ w.extractLsb' 0 24 = w &&& 0x00FFFFFF#32 := by
  apply BitVec.eq_of_toNat_eq
  have hmask : (0x00FFFFFF#32).toNat = 2 ^ 24 - 1 := by decide
  rw [BitVec.toNat_and, hmask, Nat.and_two_pow_sub_one_eq_mod, toNat_append_eq_add, BitVec.extractLsb'_toNat]
  simp

/-- Settles O21: `CFG`, `SALT` and `DIN` read back their word, and the other registers read as before or 0. -/
theorem registerWriteReadback : Obligations.RegisterWriteReadback := by
  intro s w r q hcmd
  by_cases hq : q = r
  · subst hq
    rw [if_pos rfl]
    cases q with
    | cmd => exact absurd rfl hcmd
    | cfg => exact append_low_24_bits w
    | salt k => exact le32_storeWord s.regs.salt (4 * k.val) w (by omega)
    | din k => exact le32_storeWord s.regs.din (4 * k.val) w (by omega)
    | status | size | blksz | cnt | key | dout | reserved => rfl
  · rw [if_neg hq, readReg_writeReg_of_ne w s hq]

end Sys2Proof.Machine
end

section
/-! PROOFS. Errors: what a failing command leaves, the code a command word ends with, and the steps that change `ERR`
(spec/60_exceptions.md R302 to R304). -/

namespace Sys2Proof.Machine

/-! ## The effect of an error (R302) -/

theorem runCommand_of_error {w : HostWord} {x : DecodeError} (hw : decode w = .error x) (s : State) :
    runCommand w s = .next (s.raiseCmdError .illegalCommand) := by
  rw [runCommand, hw]

/-- A command either succeeds with `OK` or has stored its code and nothing else. -/
theorem exec_of_failed {i : Instr} {s t : State} (h : exec i s = .next t) (hfail : t.err ≠ .ok) :
    t = s.raiseCmdError t.err := by
  rcases exec_cases h with ⟨c, -, rfl⟩ | ⟨-, -, rfl⟩ | ⟨n, -, -, -, rfl⟩ | ⟨-, -, rfl⟩ | ⟨-, -, rfl⟩
  · rfl
  all_goals exact absurd (State.completeOk_err _) hfail

/-- Settles O6: a word fails in the decoder, or as the command it decodes to. -/
theorem failedCommandChangesOnlyErr : Obligations.FailedCommandChangesOnlyErr := by
  intro w s t h hfail
  cases hw : decode w with
  | ok i => exact exec_of_failed ((runCommand_of_decode hw s).symm.trans h) hfail
  | error x =>
    cases (runCommand_of_error hw s).symm.trans h
    rfl

/-! ## The code of a command (R301, R304) -/

theorem State.whenConfigured_err (f : State → State) (s : State) :
    (s.whenConfigured f).err = if s.hash.conf = false then .notConfigured else .ok := by
  cases hconf : s.hash.conf with
  | false => rw [State.whenConfigured_of_unconfigured _ _ hconf, if_pos rfl, State.raiseCmdError_err]
  | true => rw [State.whenConfigured_of_configured _ _ hconf, if_neg nofun, State.completeOk_err]

/-- `INIT` reports a long key before a long salt. -/
theorem exec_init_err (s : State) :
    ∃ t, exec .init s = .next t ∧
      t.err =
        if 64 < (keyLength s.regs).toNat then .keyTooLarge
        else if 16 < (saltLength s.regs).toNat then .saltTooLarge
        else .ok := by
  by_cases hk : 64 < (keyLength s.regs).toNat
  · exact ⟨_, exec_init_of_error (configError_of_long_key hk), (if_pos hk).symm⟩
  by_cases hs : 16 < (saltLength s.regs).toNat
  · rw [if_neg hk, if_pos hs]
    exact ⟨_, exec_init_of_error (configError_of_long_salt (Nat.not_lt.mp hk) hs), rfl⟩
  · rw [if_neg hk, if_neg hs]
    exact ⟨_, exec_init_of_no_error (configError_of_legal (Nat.not_lt.mp hk) (Nat.not_lt.mp hs)), rfl⟩

/-- `WRITE` looks at its count before `CONF`. -/
theorem exec_write_err (n : Nat) (s : State) :
    ∃ t, exec (.write n) s = .next t ∧
      t.err = if 128 < n then .badLength else if s.hash.conf = false then .notConfigured else .ok := by
  rw [exec, execWrite]
  by_cases hn : 128 < n
  · rw [if_pos hn, if_pos hn]
    exact ⟨_, rfl, rfl⟩
  · rw [if_neg hn, if_neg hn]
    exact ⟨_, rfl, State.whenConfigured_err _ s⟩

/-- A word that passes the checks of the decoder is a command (R104, R105). -/
theorem exists_decode_eq_ok {w : HostWord}
    (hop : opField w = 0x01#8 ∨ opField w = 0x02#8 ∨ opField w = 0x03#8 ∨ opField w = 0x04#8)
    (hrsv : rsvField w = 0#16) (hlen : opField w = 0x02#8 ∨ lenField w = 0#8) : ∃ i, decode w = .ok i := by
  obtain ⟨i, hi⟩ : ∃ i, commandOf (opField w) (lenField w).toNat = some i := by
    simp only [commandOf_eq_some]
    rcases hop with h | h | h | h
    · exact ⟨.init, .inl ⟨h, rfl⟩⟩
    · exact ⟨.write _, .inr (.inl ⟨h, rfl⟩)⟩
    · exact ⟨.sum, .inr (.inr (.inl ⟨h, rfl⟩))⟩
    · exact ⟨.reset, .inr (.inr (.inr ⟨h, rfl⟩))⟩
  exact ⟨i, decode_eq_ok.mpr ⟨hi, hrsv, hlen⟩⟩

/-- Settles O7: an illegal word fails in the decoder, and any other has the opcode and the count of the command it runs. -/
theorem firstCauseIsReported : Obligations.FirstCauseIsReported := by
  intro w s op len
  by_cases hillegal : (op ≠ 0x01#8 ∧ op ≠ 0x02#8 ∧ op ≠ 0x03#8 ∧ op ≠ 0x04#8) ∨ w.extractLsb' 16 16 ≠ 0#16 ∨
      (op ≠ 0x02#8 ∧ len ≠ 0#8)
  · rw [if_pos hillegal]
    exact ⟨_, illegalWordChangesOnlyErr.2 w s hillegal, rfl⟩
  rw [if_neg hillegal]
  obtain ⟨hop, hrsv, hlen⟩ : (op = 0x01#8 ∨ op = 0x02#8 ∨ op = 0x03#8 ∨ op = 0x04#8) ∧ w.extractLsb' 16 16 = 0#16 ∧
      (op = 0x02#8 ∨ len = 0#8) := by tauto
  obtain ⟨i, hw⟩ := exists_decode_eq_ok hop hrsv hlen
  obtain ⟨hwf, hopcode, hlength, -⟩ := decode_eq_ok_iff_fields.mp hw
  have hopField : op = opcodeOf i := hopcode
  have hlenField : len = lengthOf i := hlength
  rw [runCommand_of_decode hw, hopField, hlenField]
  cases i with
  | init =>
    simp only [opcodeOf, BitVec.reduceEq, ne_eq, not_true, false_and, true_and, if_false]
    exact exec_init_err s
  | write n =>
    have hcount : (lengthOf (.write n)).toNat = n := Nat.mod_eq_of_lt (of_decide_eq_true hwf)
    rw [hcount]
    simpa [opcodeOf] using exec_write_err n s
  | sum | reset => exact ⟨_, rfl, by simpa [opcodeOf] using State.whenConfigured_err _ s⟩

/-! ## The lifetime of `ERR` (R303) -/

/-- Settles O8: with no event, a read, a staging write or a level of `rst` that resets nothing, `ERR` stays. -/
theorem onlyCommandsWriteErr : Obligations.OnlyCommandsWriteErr := by
  intro s t h hne
  rcases step_cases h with ⟨-, rfl⟩ | ⟨e, rest, hp, he⟩
  · exact absurd rfl hne
  refine ⟨e, rest, hp, ?_⟩
  rcases serveEvent_cases he with ⟨off, -, -, rfl⟩ | ⟨off, w, -, -, -, rfl⟩ | ⟨off, w, i, u, rfl, -, hcmd, -, -, -⟩ |
    ⟨off, w, x, rfl, -, hcmd, -, -⟩ | ⟨level, rfl, -, -⟩ | ⟨-, -, rfl⟩ | ⟨x, rfl, -, -⟩
  · exact absurd rfl hne
  · exact absurd (writeReg_err (regAt off) w (s.setPending rest)) hne
  · exact .inl ⟨off, w, rfl, hcmd⟩
  · exact .inl ⟨off, w, rfl, hcmd⟩
  · exact .inr (.inl ⟨level, rfl⟩)
  · exact absurd rfl hne
  · exact .inr (.inr ⟨x, rfl⟩)

end Sys2Proof.Machine
end

section
/-! PROOFS. Hardware reset and the quiet block: with nothing at the port a step changes nothing, a transaction presented while
`rst` is asserted is refused, and `rst` leaves every register at its reset value (spec/70_reset_and_hazards.md). -/

namespace Sys2Proof.Machine

/-! ## Events at the port in and around reset (R330, R331, R353) -/

theorem serveEvent_access_of_rst (x : Transaction) {s : State} (hr : s.port.rst = true) :
    serveEvent (.access x) s = .refused .accessDuringReset := by
  rw [serveEvent, if_pos hr]

theorem serveEvent_cutOff_of_rst (x : Transaction) {s : State} (hr : s.port.rst = true) :
    serveEvent (.cutOff x) s = .refused .accessDuringReset := by
  rw [serveEvent, if_pos hr]

theorem serveEvent_cutOff (x : Transaction) {s : State} (hr : s.port.rst = false) :
    serveEvent (.cutOff x) s = .next ((s.hardwareReset.respondCutOff x).setRst true) := by
  rw [serveEvent, if_neg (Bool.eq_false_iff.mp hr)]

/-- `rst` resets the block when it is asserted, and when it is deasserted after having been asserted (R330). -/
theorem serveEvent_rst {level : Bool} {s : State} (h : level = true ∨ s.port.rst = true) :
    serveEvent (.rst level) s = .next (s.hardwareReset.setRst level) := by
  rw [serveEvent, if_pos (Bool.or_eq_true_iff.mpr h)]

/-! ## Quiescence, refusal and hardware reset -/

/-- Settles O13. -/
theorem quiescentBlockKeepsItsState : Obligations.QuiescentBlockKeepsItsState := fun _ => step_of_nil

/-- Settles O14: a whole transaction and a cut-off one are both refused. -/
theorem accessDuringResetIsRefused : Obligations.AccessDuringResetIsRefused := by
  intro s x rest hr hp
  rcases hp with hp | hp
  · exact (step_of_cons hp).trans (serveEvent_access_of_rst x (s := s.setPending rest) hr)
  · exact (step_of_cons hp).trans (serveEvent_cutOff_of_rst x (s := s.setPending rest) hr)

/-- Settles O16: a level of `rst` changes nothing at the port but the level, and the answer to a cut-off transaction leaves the
registers at their reset values. -/
theorem hardwareResetRestoresResetValues : Obligations.HardwareResetRestoresResetValues := by
  refine ⟨fun s level rest hp hresets => ?_, fun s x rest hp hr => ?_⟩
  · exact ⟨_, (step_of_cons hp).trans (serveEvent_rst (s := s.setPending rest) hresets), rfl, rfl, rfl, rfl⟩
  · obtain ⟨hhash, herr, hregs, -, hpending⟩ := State.respondCutOff_frame x (s.setPending rest).hardwareReset
    exact ⟨_, (step_of_cons hp).trans (serveEvent_cutOff x (s := s.setPending rest) hr), hhash, herr, hregs, rfl, hpending⟩

end Sys2Proof.Machine
end
